-- ==== Sys2Proof/Word.lean ====
section
/-! DEFINITION. The two widths of this hardware (`00_scope.md` R3): data values of XLEN = 8 bits and
addresses of ALEN = 16 bits. Bit 0 is the least significant bit of either (R4). -/

namespace Sys2Proof

/-- A data value: A, X, Y, P and every byte of memory (R3, XLEN). No value is ever signed (R4). -/
abbrev Byte := BitVec 8

/-- A word16: pc and every address (R3, ALEN). -/
abbrev Address := BitVec 16

end Sys2Proof
end

