-- ==== Sys2Proof/Config.lean ====
section
/-! DEFINITION. The fixed parameters of `00_scope.md` R3 under the spec's names. The spec leaves no
parameter open and no value undefined, so this file holds no free value. -/

namespace Sys2Proof.Config

/-- MEM_BYTES: memory is one byte short of the full 16-bit range (R3, R31). -/
def memBytes : Nat := 65535

/-- MEM_TOP: the highest populated address (R3). -/
def memTop : Nat := 0xFFFE

/-- ORIGIN: where LOAD places the first program byte (R3, R40). -/
def origin : Address := 0x8000

/-- RESET_VECTOR: the address of the vector's low byte; the high byte follows (R3, R36, R40). -/
def resetVector : Address := 0xFFFC

/-- MAX_PROGRAM: the longest program LOAD accepts (R3, R124). -/
def maxProgram : Nat := 32767

/-- NUM_OPCODES: how many opcode values are implemented (R3, R53). -/
def numOpcodes : Nat := 4

/-- The most applications of Step that one EXECUTE makes (R73, `90_conflicts.md` C9). -/
def maxSteps : Nat := 65536

end Sys2Proof.Config
end

