-- ==== Sys2Proof/Machine/State.lean ====
section
/-! DEFINITION. The machine's state (`10_state.md` R10: exactly six elements), the mark of where the
sequencer stands between two steps, the state after reset, and the reasons a step can stop. -/

namespace Sys2Proof.Machine

/-- Memory as (address, byte) pairs in one canonical form: addresses strictly rising, each populated,
and no pair that holds what an unlisted address reads as (`Memory.wf` in `Machine/Ops.lean`; R19, R30). -/
abbrev Memory := List Host.Cell

/-- Where the sequencer of R65 stands between two steps. Decode and Execute are passed inside one step
(R66); Faulted is a step's outcome `fault`. This is the MODEL's own mark, not state of the spec (R10,
R22). DESIGN CHOICE, log 1. -/
inductive Sequencer where
  /-- The next step begins with Fetch (R65, R72). -/
  | fetch
  /-- A halt opcode ended the run, and the run has not yet returned to the host (R65, R95, R112, R22). -/
  | halted
  deriving DecidableEq, Repr

structure State where
  /-- `accumulator` (R11). -/
  a : Byte
  /-- `index_x` (R12). -/
  x : Byte
  /-- `index_y`: "currently unused by any handler" (R13). -/
  y : Byte
  /-- `status`: bit 7 Negative, bit 1 Zero, the other six plain storage (R14, R15). -/
  p : Byte
  /-- `instruction_pointer` (R18). -/
  pc : Address
  /-- `memory`, 0x0000 to 0xFFFE (R19). -/
  mem : Memory
  /-- The model's own mark. DESIGN CHOICE, log 1. -/
  seq : Sequencer
  deriving DecidableEq, Repr

/-- The machine right after POWER_ON and RESET (R120, R121): every register and every byte zero, pc the
word of the zero reset vector (R122; vector V48). DEDUCED, log 11; the mark `seq` is
a DESIGN CHOICE, log 1. -/
def State.reset : State where
  a := 0x00
  x := 0x00
  y := 0x00
  p := 0x00
  pc := 0x0000
  mem := []
  seq := .fetch

/-- The faults of R100 in the closed type of R103. Each carries, last, the machine state as the sub-steps
completed before the fault left it (R107). DEDUCED, log 4. -/
inductive Fault where
  /-- Raised by Decode on an opcode byte outside 0xA9, 0xAA, 0xE8, 0x00; `ip` is the advanced pc (R101).
  Safe: the spec gives no such opcode an effect. -/
  | unimplementedOpcode (op : Byte) (ip : Address) (left : State)
  /-- Raised by any byte access at 0xFFFF: opcode fetch, operand fetch, a host's memory access (R102).
  Safe: it errs "toward unprovable" (D1). -/
  | boundsViolation (addr : Address) (left : State)
  /-- Raised by the host operation LOAD alone, on a program longer than MAX_PROGRAM (R124); no step raises
  it. Safe: "an operation refused" (D7). -/
  | loadTooLarge (len : Nat) (left : State)
  deriving DecidableEq, Repr

/-- Reasons to have no meaning. The spec gives every instruction of the table its effect, so no arm of
`exec` uses this. -/
inductive Refusal where
  /-- The instruction of this row of the opcode table has no meaning yet; raised by `exec` alone. Safe. -/
  | notModelled (mnemonic : String)
  deriving DecidableEq, Repr

end Sys2Proof.Machine
end

