-- ==== Sys2Proof/Machine/Ops.lean ====
section
/-! DEFINITION. The shared operations over registers and memory (`20_memory.md`), the fetch of one byte
of the instruction stream (`40_execution_loop.md` R67), and fault entry (`60_exceptions.md` R107). -/

namespace Sys2Proof.Machine

/-! ### The memory array -/

/-- What a byte nothing has written since POWER_ON reads as (R120, R39). -/
def unlistedByte : Byte := 0x00

/-- `mem[a]`, with no check (`00_scope.md` section 6). That it is total, 0xFFFF included, is a DESIGN
CHOICE, log 12; every access of the machine is checked first. -/
def Memory.byteAt : Memory → Nat → Byte
  | [], _ => unlistedByte
  | (k, v) :: rest, a => if k = a then v else Memory.byteAt rest a

/-- `mem[a] <- v`, with no check, keeping the canonical form. -/
def Memory.setByte : Memory → Nat → Byte → Memory
  | [], a, v => if v = unlistedByte then [] else [(a, v)]
  | (k, w) :: rest, a, v =>
    if a < k then
      if v = unlistedByte then (k, w) :: rest else (a, v) :: (k, w) :: rest
    else if a = k then
      if v = unlistedByte then rest else (a, v) :: rest
    else (k, w) :: Memory.setByte rest a v

/-- The canonical form from the address `lo` up: strictly rising populated addresses, no pair that holds
the byte an unlisted address reads as. -/
def Memory.wfFrom : Nat → Memory → Bool
  | _, [] => true
  | lo, (k, v) :: rest =>
    decide (lo ≤ k) && decide (k ≤ Config.memTop) && decide (v ≠ unlistedByte)
      && Memory.wfFrom (k + 1) rest

/-- The canonical form of a memory. -/
def Memory.wf (m : Memory) : Bool :=
  Memory.wfFrom 0 m

/-! ### Byte order -/

/-- `hi ++ lo`, the word16 `(hi << 8) | lo` (R4, R34). -/
def joinBytes (hi lo : Byte) : Address :=
  hi ++ lo

/-- `v & 0xFF` (R35). -/
def lowByte (v : Address) : Byte :=
  v.setWidth 8

/-- `v >> 8` (R35). -/
def highByte (v : Address) : Byte :=
  (v >>> 8).setWidth 8

/-! ### Registers: every write of a field of State goes through one of these -/

def State.setA (s : State) (v : Byte) : State := { s with a := v }
def State.setX (s : State) (v : Byte) : State := { s with x := v }
def State.setY (s : State) (v : Byte) : State := { s with y := v }
def State.setP (s : State) (v : Byte) : State := { s with p := v }
def State.setPc (s : State) (v : Address) : State := { s with pc := v }
def State.setMem (s : State) (m : Memory) : State := { s with mem := m }
def State.setSeq (s : State) (q : Sequencer) : State := { s with seq := q }

/-- `mem[a]` of a state, with no check. -/
def State.byteAt (s : State) (a : Address) : Byte :=
  Memory.byteAt s.mem a.toNat

/-- The bytes of memory at `pc` and `pc + 1`, as far as they are populated: what an instruction that
starts at pc can be made of (R50, R51). -/
def State.bytesAtPc (s : State) : List Byte :=
  if Config.memTop < s.pc.toNat then []
  else if Config.memTop < s.pc.toNat + 1 then [Memory.byteAt s.mem s.pc.toNat]
  else [Memory.byteAt s.mem s.pc.toNat, Memory.byteAt s.mem (s.pc.toNat + 1)]

/-! ### Fault entry and what follows it -/

/-- Fault entry, for every fault (R107): no vector is read, nothing is saved, no register changes; the
operation ends with the fault and the state exactly as it stands. -/
def raiseFault {α : Type} (fault : State → Fault) (s : State) : Except Fault α :=
  .error (fault s)

/-- The machine state a fault leaves. There is no return from a fault inside the machine; the host goes
on from this state (R107, R108). -/
def Fault.stateLeft : Fault → State
  | .unimplementedOpcode _ _ left => left
  | .boundsViolation _ left => left
  | .loadTooLarge _ left => left

/-! ### The four access primitives -/

/-- `MemRead(a, 1)` (R32). -/
def memRead (s : State) (a : Address) : Except Fault Byte :=
  if Config.memTop < a.toNat then raiseFault (.boundsViolation a) s
  else .ok (Memory.byteAt s.mem a.toNat)

/-- `MemWrite(a, 1, v)` (R33). -/
def memWrite (s : State) (a : Address) (v : Byte) : Except Fault State :=
  if Config.memTop < a.toNat then raiseFault (.boundsViolation a) s
  else .ok (s.setMem (Memory.setByte s.mem a.toNat v))

/-- `MemRead(a, 2)`: two byte reads, the low byte first (R34). -/
def memRead16 (s : State) (a : Address) : Except Fault Address :=
  match memRead s a with
  | .error f => .error f
  | .ok lo =>
    match memRead s (a + 1) with
    | .error f => .error f
    | .ok hi => .ok (joinBytes hi lo)

/-- `MemWrite(a, 2, v)`: two byte writes, the low byte first, no rollback (R35). -/
def memWrite16 (s : State) (a : Address) (v : Address) : Except Fault State :=
  match memWrite s a (lowByte v) with
  | .error f => .error f
  | .ok s1 => memWrite s1 (a + 1) (highByte v)

/-! ### The instruction stream -/

/-- One byte of the instruction stream: the read at pc, then the advance of pc by one; a read that faults
leaves pc alone (R67 for the opcode, R80 for an operand). The sum never wraps (R18). -/
def fetchByte (s : State) : Except Fault (Byte × State) :=
  match memRead s s.pc with
  | .error f => .error f
  | .ok b => .ok (b, s.setPc (s.pc + 1))

end Sys2Proof.Machine
end

