-- ==== Sys2Proof/Machine/Halt.lean ====
section
/-! DEFINITION. `44_halt.md`: HLT and what a step does once the run has ended. -/

namespace Sys2Proof.Machine

/-- HLT (R95): the sequencer goes to Halted; no register, flag or byte changes. -/
def execHlt (s : State) : Host.Outcome State Fault Refusal :=
  .next (s.setSeq .halted)

/-- Halted is terminal: no transition leaves it and nothing is fetched (R65, R95). A step there answers
the same state until the run returns to the host (`returnOutcome`). DESIGN CHOICE, log 2. -/
def haltedStep (s : State) : Host.Outcome State Fault Refusal :=
  .next s

end Sys2Proof.Machine
end

