-- ==== Sys2Proof/Machine/Flags.lean ====
section
/-! DEFINITION. The status register's two flags and the one flag computation, SetZN (`10_state.md` R14
to R16). -/

namespace Sys2Proof.Machine

/-- Z, bit 1 of P (R14). -/
def State.zeroFlag (s : State) : Bool :=
  s.p.getLsbD 1

/-- N, bit 7 of P (R14). -/
def State.negativeFlag (s : State) : Bool :=
  s.p.getLsbD 7

/-- The six reserved bits of P, mask 0x7D (R15). -/
def State.reservedBits (s : State) : Byte :=
  s.p &&& 0x7D

/-- P after `SetZN(v)` (R16). -/
def setZN (p v : Byte) : Byte :=
  (p &&& 0x7D) ||| (if v = 0 then 0x02 else 0x00) ||| (v &&& 0x80)

/-- The operation `SetZN(v)` on the state (R16). -/
def State.updateZN (s : State) (v : Byte) : State :=
  s.setP (setZN s.p v)

end Sys2Proof.Machine
end

