-- ==== Sys2Proof/Machine/Increment.lean ====
section
/-! DEFINITION. `43_increment.md`: INX and the one arithmetic operation of the hardware. -/

namespace Sys2Proof.Machine

/-- `(v + 1) mod 256` on a byte, the carry discarded (R90, R91). -/
def incrementByte (v : Byte) : Byte :=
  BitVec.ofNat 8 ((v.toNat + 1) % 256)

/-- INX (R90): `r = (X + 1) mod 256; X <- r; SetZN(r)`. -/
def execInx (s : State) : Host.Outcome State Fault Refusal :=
  .next ((s.setX (incrementByte s.x)).updateZN (incrementByte s.x))

end Sys2Proof.Machine
end

