-- ==== Sys2Proof/Machine/LoadImmediate.lean ====
section
/-! DEFINITION. `41_load_immediate.md`: LDA #imm8. -/

namespace Sys2Proof.Machine

/-- LDA #imm8 (R80): `A <- v; SetZN(v)`. The operand fetch and its fault stand in `fetchInstr`.
DEDUCED, log 6. -/
def execLdaImm (imm8 : Byte) (s : State) : Host.Outcome State Fault Refusal :=
  .next ((s.setA imm8).updateZN imm8)

end Sys2Proof.Machine
end

