-- ==== Sys2Proof/Machine/RegisterTransfer.lean ====
section
/-! DEFINITION. `42_register_transfer.md`: TAX. -/

namespace Sys2Proof.Machine

/-- TAX (R85): `X <- A; SetZN(X)` with the new X. -/
def execTax (s : State) : Host.Outcome State Fault Refusal :=
  .next ((s.setX s.a).updateZN s.a)

end Sys2Proof.Machine
end

