-- ==== Sys2Proof/Syntax.lean ====
section
/-! DEFINITION. The instruction set: one constructor per row of `spec/opcode_table.json`
(`30_encoding.md` R53; the list is exhaustive, R17, R96). Registers are implied by the opcode (R51). -/

namespace Sys2Proof

inductive Instr where
  /-- `LDA #imm8`, load-accumulator-immediate, 0xA9 (R80). -/
  | ldaImm (imm8 : Byte)
  /-- `TAX`, transfer-accumulator-to-index-x, 0xAA (R85). -/
  | tax
  /-- `INX`, increment-index-x, 0xE8 (R90). -/
  | inx
  /-- `HLT`, halt, 0x00 (R95). -/
  | hlt
  deriving DecidableEq, Repr

end Sys2Proof
end

