-- ==== Sys2Proof/Machine/Dispatch.lean ====
section
/-! DEFINITION. The Execute phase: the handler of each decoded instruction (`40_execution_loop.md` R69). -/

namespace Sys2Proof.Machine

def exec (i : Instr) (s : State) : Host.Outcome State Fault Refusal :=
  match i with
  | .ldaImm imm8 => Sys2Proof.Machine.execLdaImm imm8 s
  | .tax => Sys2Proof.Machine.execTax s
  | .inx => Sys2Proof.Machine.execInx s
  | .hlt => Sys2Proof.Machine.execHlt s

end Sys2Proof.Machine
end

