-- ==== Sys2Proof/Decode.lean ====
section
/-! DEFINITION. Decoding (`30_encoding.md` R50 to R57) and, after it, the encoder and the assembly of a
program (R58, R59). -/

namespace Sys2Proof

/-- What Decode answers for one of the four known opcode bytes (R54). -/
inductive Opcode where
  | ldaImm
  | tax
  | inx
  | hlt
  deriving DecidableEq, Repr

/-- Why a list of bytes holds no instruction. `unimplementedOpcode` is R55; the other two say that the
list ends before the instruction does. DESIGN CHOICE, log 8. -/
inductive DecodeRejection where
  | unimplementedOpcode (op : Byte)
  | noOpcode
  | noOperand
  deriving DecidableEq, Repr

/-- The decode function of R54: `none` is `Unimplemented(b)`. -/
def decodeOpcode (b : Byte) : Option Opcode :=
  if b = 0xA9#8 then some .ldaImm
  else if b = 0xAA#8 then some .tax
  else if b = 0xE8#8 then some .inx
  else if b = 0x00#8 then some .hlt
  else none

/-- Decodes the first instruction of a list of bytes and answers the bytes after it (R50 to R53). -/
def decode : List Byte → Except DecodeRejection (Instr × List Byte)
  | [] => .error .noOpcode
  | op :: rest =>
    match decodeOpcode op with
    | none => .error (.unimplementedOpcode op)
    | some .ldaImm =>
      match rest with
      | [] => .error .noOperand
      | imm8 :: rest => .ok (.ldaImm imm8, rest)
    | some .tax => .ok (.tax, rest)
    | some .inx => .ok (.inx, rest)
    | some .hlt => .ok (.hlt, rest)

/-- How many bytes the instruction at an opcode byte takes: "if it is 0xA9 the next instruction starts 2
bytes on, otherwise 1 byte on" (R57, R50); of an unimplemented opcode one byte is consumed (R55). -/
def opcodeLength (op : Byte) : Nat :=
  if op = 0xA9#8 then 2 else 1

/-- The static walk of R57 over a whole list of bytes. At an unimplemented opcode byte the walk ends and the
whole list is rejected under that byte: R57 says that the next instruction starts one byte on, and also that
such a byte "has no defined length beyond the one byte consumed, and execution never continues past it".
DESIGN CHOICE, log 13. -/
def disassemble : List Byte → Except DecodeRejection (List Instr)
  | [] => .ok []
  | op :: rest =>
    match decodeOpcode op with
    | none => .error (.unimplementedOpcode op)
    | some .ldaImm =>
      match rest with
      | [] => .error .noOperand
      | imm8 :: rest => (disassemble rest).map (Instr.ldaImm imm8 :: ·)
    | some .tax => (disassemble rest).map (Instr.tax :: ·)
    | some .inx => (disassemble rest).map (Instr.inx :: ·)
    | some .hlt => (disassemble rest).map (Instr.hlt :: ·)

/-! ### The encoder -/

/-- The length column of R53. -/
def Instr.length : Instr → Nat
  | .ldaImm _ => 2
  | .tax => 1
  | .inx => 1
  | .hlt => 1

/-- The bytes of an instruction, the opcode at the lower address (R51, R53). -/
def encode : Instr → List Byte
  | .ldaImm imm8 => [0xA9#8, imm8]
  | .tax => [0xAA#8]
  | .inx => [0xE8#8]
  | .hlt => [0x00#8]

/-- The short name of an instruction (R58; the spec's own aliases). -/
def Instr.shortName : Instr → String
  | .ldaImm _ => "LDA"
  | .tax => "TAX"
  | .inx => "INX"
  | .hlt => "HLT"

/-- The source's name of an instruction, "the normative one" (R58). -/
def Instr.sourceName : Instr → String
  | .ldaImm _ => "load-accumulator-immediate"
  | .tax => "transfer-accumulator-to-index-x"
  | .inx => "increment-index-x"
  | .hlt => "halt"

/-- A line of a program: an instruction, or `.byte b` (R58). -/
inductive ProgramLine where
  | instr (i : Instr)
  | byte (b : Byte)
  deriving DecidableEq, Repr

/-- The bytes of one line (R58). -/
def ProgramLine.bytes : ProgramLine → List Byte
  | .instr i => encode i
  | .byte b => [b]

/-- "A program is assembled by concatenating the bytes of its lines" (R59). -/
def assemble (lines : List ProgramLine) : List Byte :=
  lines.flatMap ProgramLine.bytes

/-! ### Words as the opcode table numbers them -/

/-- The two bytes, first byte first, of an instruction whose bits are `w` in the table's numbering (bit 0
is bit 0 of the first byte, bit 8 is bit 0 of the second); bits from `nbits` up are zero. -/
def tableWordBytes (nbits w : Nat) : List Byte :=
  [BitVec.ofNat 8 (w % 2 ^ nbits), BitVec.ofNat 8 (w % 2 ^ nbits / 256)]

/-- The instruction `decode` reads from those bytes; `none` where it refuses. -/
def decodeTableWord (nbits w : Nat) : Option Instr :=
  match decode (tableWordBytes nbits w) with
  | .ok (i, _) => some i
  | .error _ => none

end Sys2Proof
end

