-- ==== Sys2Proof/Machine/Operands.lean ====
section
/-! DEFINITION. The operand forms (`30_encoding.md` R51): implied, which fetches nothing, and immediate.
There is no other addressing mode (R81, R2). -/

namespace Sys2Proof.Machine

/-- The immediate operand: the byte at pc, taken whole, with no extension; pc moves past it (R52, R80,
R81). It faults when pc is 0xFFFF. -/
def fetchImmediate (s : State) : Except Fault (Byte × State) :=
  fetchByte s

end Sys2Proof.Machine
end

