-- ==== Sys2Proof/Machine/Fetch.lean ====
section
/-! DEFINITION. Fetch and Decode of one instruction (`40_execution_loop.md` R67, R68, R70), and the
placing of an instruction where the next step fetches it. -/

namespace Sys2Proof.Machine

/-- Fetch, Decode and the operand fetch of one instruction, in the order of R70 and R106: the opcode byte,
the match against the known opcodes, then for LDA # its operand. It answers the instruction and the state
with pc past it, or the fault with the state the completed fetches left (R107). That the
operand is fetched here and not by the meaning is DEDUCED (R66), log 6. -/
def fetchInstr (s : State) : Except Fault (Instr × State) :=
  match fetchByte s with
  | .error f => .error f
  | .ok (op, s1) =>
    match decodeOpcode op with
    | none => raiseFault (.unimplementedOpcode op s1.pc) s1
    | some .ldaImm =>
      match fetchImmediate s1 with
      | .error f => .error f
      | .ok (imm8, s2) => .ok (.ldaImm imm8, s2)
    | some .tax => .ok (.tax, s1)
    | some .inx => .ok (.inx, s1)
    | some .hlt => .ok (.hlt, s1)

/-- Places bytes at rising addresses from `a` up, as far as those addresses are populated. -/
def placeBytes (m : Memory) (a : Nat) : List Byte → Memory
  | [] => m
  | b :: rest =>
    placeBytes (if a ≤ Config.memTop then Memory.setByte m a b else m) (a + 1) rest

/-- The state with the bytes of an instruction at pc and the sequencer at Fetch. DESIGN CHOICE, log 7. -/
def placeInstruction (s : State) (bytes : List Byte) : State :=
  (s.setMem (placeBytes s.mem s.pc.toNat bytes)).setSeq .fetch

end Sys2Proof.Machine
end

