-- ==== Sys2Proof/Machine/Step.lean ====
section
/-! DEFINITION. One step of the machine: Fetch, Decode and Execute of one instruction as one atomic step
(`40_execution_loop.md` R66, R70). -/

namespace Sys2Proof.Machine

/-- `Step` of R70. Its `Next` is a next state whose sequencer is at Fetch, its `Halted` a next state whose
sequencer is halted, its `Faulted` the outcome `fault` with the state left (log 1, log 4). -/
def step (s : State) : Host.Outcome State Fault Refusal :=
  match s.seq with
  | .halted => haltedStep s
  | .fetch =>
    match fetchInstr s with
    | .error f => .fault f
    | .ok (i, t) => exec i t

/-- The state with the table's instruction word stored at pc, where step fetches it, and the sequencer at
Fetch. DESIGN CHOICE, log 7. -/
def State.withFetchWord (s : State) (nbits w : Nat) : State :=
  placeInstruction s (tableWordBytes nbits w)

end Sys2Proof.Machine
end

