-- ==== Sys2Proof/WellFormed.lean ====
section
/-! DEFINITION. What a well-formed instruction and a program LOAD accepts are. -/

namespace Sys2Proof

/-- Every instruction of the syntax is well-formed: the one operand is a byte by its type, and "the
operand byte of LDA # has no illegal value: all 256 values are accepted" (R56; no other operand, R51).
So this check refuses nothing. DEDUCED, log 9. -/
def Instr.wellFormed : Instr → Bool
  | .ldaImm _ => true
  | .tax => true
  | .inx => true
  | .hlt => true

/-- A program LOAD accepts: at most MAX_PROGRAM bytes (R124); the empty one included (R125). -/
def programFits (program : List Byte) : Bool :=
  program.length ≤ Config.maxProgram

end Sys2Proof
end

