-- ==== Sys2Proof/Machine/HostOps.lean ====
section
/-! DEFINITION. The operations the host performs on the core between runs
(`70_reset_and_hazards.md` R120 to R127; EXECUTE in `40_execution_loop.md` R71, R72). -/

namespace Sys2Proof.Machine

/-- POWER_ON (R120): every register and every byte zero. -/
def powerOn : State where
  a := 0x00
  x := 0x00
  y := 0x00
  p := 0x00
  pc := 0x0000
  mem := []
  seq := .fetch

/-- RESET (R121): clears A, X and all of P, then loads pc from the reset vector; Y and memory stay. The
model's mark goes to Fetch (DESIGN CHOICE, log 3). That the read cannot fault (R122) is a theorem, not a definition. -/
def hostReset (s : State) : Except Fault State :=
  let cleared := (((s.setA 0x00).setX 0x00).setP 0x00).setSeq .fetch
  match memRead16 cleared Config.resetVector with
  | .error f => .error f
  | .ok vector => .ok (cleared.setPc vector)

/-- The loop of LOAD: `MemWrite(a + i, 1, b[i])` for increasing i (R123). -/
def copyBytes (s : State) (a : Address) : List Byte → Except Fault State
  | [] => .ok s
  | b :: rest =>
    match memWrite s a b with
    | .error f => .error f
    | .ok s1 => copyBytes s1 (a + 1) rest

/-- LOAD (R123): a program that is too long is refused before anything is written (R124); otherwise the
program goes to ORIGIN and then ORIGIN to the reset vector. -/
def hostLoad (s : State) (program : List Byte) : Except Fault State :=
  if programFits program then
    match copyBytes s Config.origin program with
    | .error f => .error f
    | .ok s1 => memWrite16 s1 Config.resetVector Config.origin
  else raiseFault (.loadTooLarge program.length) s

/-- The loop of EXECUTE with a bound on the number of steps: `ok` is the outcome Halted with the halted
state, `error` the outcome Faulted (R71). `none` is a loop the bound cut short. -/
def runLoop : Nat → State → Option (Except Fault State)
  | 0, _ => none
  | n + 1, s =>
    match step s with
    | .fault f => some (.error f)
    | .refused _ => none
    | .next t =>
      match t.seq with
      | .halted => some (.ok t)
      | .fetch => runLoop n t

/-- The run returns its outcome to the host, and "nothing of them is retained": the sequencer's Halted goes
into the outcome and out of the state (R22, D8). A fault left the sequencer at Fetch already. -/
def returnOutcome : Except Fault State → Except Fault State
  | .ok t => .ok (t.setSeq .fetch)
  | .error f => .error f

/-- EXECUTE (R71): starts at Fetch with the current pc, whatever the previous outcome was (R72), runs to
Halted or Faulted, and returns the outcome with a state that retains none of it (R22). The bound is R73's, so the loop is never cut short. DEDUCED,
log 10. -/
def execute (s : State) : Option (Except Fault State) :=
  (runLoop Config.maxSteps (s.setSeq .fetch)).map returnOutcome

/-- LOAD_AND_RUN (R126): LOAD, RESET, EXECUTE; a refused LOAD is the result and ends it (D15). -/
def loadAndRun (s : State) (program : List Byte) : Option (Except Fault State) :=
  match hostLoad s program with
  | .error f => some (.error f)
  | .ok s1 =>
    match hostReset s1 with
    | .error f => some (.error f)
    | .ok s2 => execute s2

/-! ### Register access -/

/-- The four 8-bit registers the host can name (R20). -/
inductive Reg where
  | a
  | x
  | y
  | p
  deriving DecidableEq, Repr

/-- A host read of a register: the stored value, no side effect (R20). -/
def State.readReg (s : State) : Reg → Byte
  | .a => s.a
  | .x => s.x
  | .y => s.y
  | .p => s.p

/-- A host write of a register: all eight bits, reserved bits of P included, no side effect (R20, R15). -/
def State.writeReg (s : State) (r : Reg) (v : Byte) : State :=
  match r with
  | .a => s.setA v
  | .x => s.setX v
  | .y => s.setY v
  | .p => s.setP v

/-! ### The complete set of operations (R127) -/

inductive HostOp where
  | powerOn
  | load (program : List Byte)
  | reset
  | execute
  | loadAndRun (program : List Byte)
  | readReg (r : Reg)
  | writeReg (r : Reg) (v : Byte)
  | readPc
  | writePc (v : Address)
  | readByte (addr : Address)
  | readWord (addr : Address)
  | writeByte (addr : Address) (v : Byte)
  | writeWord (addr : Address) (v : Address)
  deriving DecidableEq, Repr

/-- What an operation answers to the host (R127): nothing, a value, the outcome Halted, or a fault. -/
inductive HostResult where
  | done
  | byte (v : Byte)
  | word (v : Address)
  | halted
  | failed (f : Fault)
  /-- A run cut short by the bound; it never occurs (R73, log 10). -/
  | unfinished
  deriving DecidableEq, Repr

/-- The result and state of an operation that answers nothing. -/
def changed : Except Fault State → HostResult × State
  | .ok t => (.done, t)
  | .error f => (.failed f, f.stateLeft)

/-- The result and state of an operation that only reads. -/
def answered {α : Type} (s : State) (result : α → HostResult) : Except Fault α → HostResult × State
  | .ok v => (result v, s)
  | .error f => (.failed f, f.stateLeft)

/-- The result and state of a run (R71). -/
def ended (s : State) : Option (Except Fault State) → HostResult × State
  | some (.ok t) => (.halted, t)
  | some (.error f) => (.failed f, f.stateLeft)
  | none => (.unfinished, s)

/-- The effect of an operation on a machine between runs (R127). -/
def performBetweenRuns (op : HostOp) (s : State) : HostResult × State :=
  match op with
  | .powerOn => (.done, Sys2Proof.Machine.powerOn)
  | .load program => changed (hostLoad s program)
  | .reset => changed (hostReset s)
  | .execute => ended s (Sys2Proof.Machine.execute s)
  | .loadAndRun program => ended s (Sys2Proof.Machine.loadAndRun s program)
  | .readReg r => (.byte (s.readReg r), s)
  | .writeReg r v => (.done, s.writeReg r v)
  | .readPc => (.word s.pc, s)
  | .writePc v => (.done, s.setPc v)
  | .readByte addr => answered s .byte (memRead s addr)
  | .readWord addr => answered s .word (memRead16 s addr)
  | .writeByte addr v => changed (memWrite s addr v)
  | .writeWord addr v => changed (memWrite16 s addr v)

/-- One operation of the host: its result, and the machine state after it (R127). The host acts only
between runs (R6), so a run that has halted has returned, and the sequencer retains nothing of it (R22):
whatever its mark, the operation begins with it at Fetch (DESIGN CHOICE, log 3). -/
def perform (op : HostOp) (s : State) : HostResult × State :=
  performBetweenRuns op (s.setSeq .fetch)

end Sys2Proof.Machine
end

