-- ==== Sys2Proof/Safety.lean ====
section
/-! DEFINITION. What claims call a safe run, the invariant of the model, and the relations claims about
runs are stated with. -/

namespace Sys2Proof

open Sys2Proof.Machine

/-- A safe run: EXECUTE from `s` ends with the outcome Halted and hands back the state `t`. A faulted run is never
safe (R112, `93_implementation_defined.md` U11). -/
def RunHalts (s t : State) : Prop :=
  execute s = some (.ok t)

/-- A run that ends with the outcome Faulted (R71, R107). -/
def RunFaults (s : State) (f : Fault) : Prop :=
  execute s = some (.error f)

/-- A halted sequencer stands right behind a halt opcode (R65, R95: Halted is reached only by executing
opcode 0x00, and pc then holds its address plus 1). -/
def HaltMarkSound (s : State) : Prop :=
  s.seq = .halted → 0 < s.pc.toNat ∧ Memory.byteAt s.mem (s.pc.toNat - 1) = 0x00#8

/-- The invariant every step keeps: memory stays in its canonical form, with no byte at 0xFFFF (R19, R31),
and a halted sequencer stands right behind a halt opcode. -/
def Inv (s : State) : Prop :=
  Memory.wf s.mem = true ∧ HaltMarkSound s

/-- What R75 says a run never changes: Y, the reserved bits of P, every byte of memory. -/
def SameUntouched (s t : State) : Prop :=
  t.y = s.y ∧ t.reservedBits = s.reservedBits ∧ ∀ a : Address, t.byteAt a = s.byteAt a

/-- Two states that agree in all an instruction reads: A, X, pc, memory and where the sequencer stands.
Y and P are left out (R13, R15, R17). -/
def SameReadState (s t : State) : Prop :=
  s.a = t.a ∧ s.x = t.x ∧ s.pc = t.pc ∧ s.mem = t.mem ∧ s.seq = t.seq

/-- The two flags agree. -/
def SameFlags (s t : State) : Prop :=
  s.zeroFlag = t.zeroFlag ∧ s.negativeFlag = t.negativeFlag

/-- Two faults of one name with the same data; the states they leave are not compared (R100, R103). -/
def SameFaultData : Fault → Fault → Prop
  | .unimplementedOpcode op ip _, .unimplementedOpcode op' ip' _ => op = op' ∧ ip = ip'
  | .boundsViolation addr _, .boundsViolation addr' _ => addr = addr'
  | .loadTooLarge len _, .loadTooLarge len' _ => len = len'
  | _, _ => False

/-- The state after the meaning of one instruction is applied `n` times; `none` where it stops. -/
def execTimes (i : Instr) : Nat → State → Option State
  | 0, s => some s
  | n + 1, s =>
    match exec i s with
    | .next t => execTimes i n t
    | .fault _ => none
    | .refused _ => none

end Sys2Proof
end

