-- ==== Sys2Proof/Certificates/Slice0/Obligations.lean ====
section
/-! DEFINITION. The statements for the provers, each from the numbered rules of `spec/`. -/

open Sys2Proof Sys2Proof.Machine

/-! ### Encoding (`30_encoding.md`) -/

/-- The words of R51's bit strings decode to the instructions they stand for; 0xEA, a no-op elsewhere, is
unimplemented here (vector V33), and a lone 0xA9 holds no whole instruction. -/
def Obligations.SpecWordsDecode : Prop :=
  decode [0b10101001#8, 0b00000101#8] = .ok (.ldaImm 0x05, []) ∧
  decode [0b10101010#8] = .ok (.tax, []) ∧
  decode [0b11101000#8] = .ok (.inx, []) ∧
  decode [0b00000000#8] = .ok (.hlt, []) ∧
  decode [0xEA] = .error (.unimplementedOpcode 0xEA) ∧
  decode [0b10101001#8] = .error .noOperand

/-- R54: which byte decodes to which opcode, and that every other byte is unimplemented. -/
def Obligations.OpcodeByteDecoding : Prop :=
  ∀ b : Byte,
    (decodeOpcode b = some .ldaImm ↔ b = 0xA9#8) ∧
    (decodeOpcode b = some .tax ↔ b = 0xAA#8) ∧
    (decodeOpcode b = some .inx ↔ b = 0xE8#8) ∧
    (decodeOpcode b = some .hlt ↔ b = 0x00#8) ∧
    (decodeOpcode b = none ↔ b ≠ 0xA9#8 ∧ b ≠ 0xAA#8 ∧ b ≠ 0xE8#8 ∧ b ≠ 0x00#8)

/-- Decoding and encoding agree in both directions, with every operand and whatever bytes follow (R50 to
R53, R56). -/
def Obligations.DecodeExactlyInvertsEncode : Prop :=
  ∀ (bytes rest : List Byte) (i : Instr), i.wellFormed = true →
    (decode bytes = .ok (i, rest) ↔ bytes = encode i ++ rest)

/-- The opcode byte alone determines the length, 1 or 2, and that many bytes are consumed (R50, R57). -/
def Obligations.OpcodeByteDeterminesLength : Prop :=
  ∀ (op : Byte) (rest rest' : List Byte) (i : Instr), decode (op :: rest) = .ok (i, rest') →
    i.length = (if op = 0xA9#8 then 2 else 1) ∧ (op :: rest).length = i.length + rest'.length

/-- The static walk reads from a list of bytes exactly the program whose assembly it is (R59 for the assembly,
R57 for where the next instruction of the table starts). That a list with an unimplemented byte in opcode
position is read as no program is the model's choice (log 13), since R57 itself says 'otherwise 1 byte on', and
so is that a list which is cut short inside an instruction is read as none (log 8). -/
def Obligations.DisassembleExactlyInvertsAssembly : Prop :=
  ∀ (bytes : List Byte) (program : List Instr), (∀ i ∈ program, i.wellFormed = true) →
    (disassemble bytes = .ok program ↔ bytes = assemble (program.map .instr))

/-! ### The meanings (`41_load_immediate.md` to `44_halt.md`), each with its frame -/

/-- R16: Z (bit 1) if and only if the result is 0, N (bit 7) a copy of bit 7, the other six bits kept;
invoked by each of the three register-mutating instructions with the register's new value. -/
def Obligations.FlagUpdateRule : Prop :=
  (∀ p v : Byte,
    (setZN p v).getLsbD 1 = decide (v = 0) ∧
    (setZN p v).getLsbD 7 = v.getLsbD 7 ∧
    (∀ k : Nat, k < 8 → k ≠ 1 → k ≠ 7 → (setZN p v).getLsbD k = p.getLsbD k) ∧
    ¬ ((setZN p v).getLsbD 1 = true ∧ (setZN p v).getLsbD 7 = true)) ∧
  (∀ (s : State) (v : Byte), ∃ t, exec (.ldaImm v) s = .next t ∧ t.p = setZN s.p t.a) ∧
  (∀ s : State, ∃ t, exec .tax s = .next t ∧ t.p = setZN s.p t.x) ∧
  (∀ s : State, ∃ t, exec .inx s = .next t ∧ t.p = setZN s.p t.x)

/-- LDA # completes in every state: A is the operand, the flags follow it, nothing else changes (R80). -/
def Obligations.LdaImmExecutes : Prop :=
  ∀ (v : Byte) (s : State), ∃ t, exec (.ldaImm v) s = .next t ∧
    t.a = v ∧ (t.zeroFlag = true ↔ v = 0) ∧ t.negativeFlag = v.getLsbD 7 ∧
    t.reservedBits = s.reservedBits ∧ t.x = s.x ∧ t.y = s.y ∧ t.pc = s.pc ∧ t.seq = s.seq ∧
    ∀ addr : Address, t.byteAt addr = s.byteAt addr

/-- TAX completes in every state: X is A, the flags follow it, nothing else changes (R85). -/
def Obligations.TaxExecutes : Prop :=
  ∀ s : State, ∃ t, exec .tax s = .next t ∧
    t.x = s.a ∧ (t.zeroFlag = true ↔ s.a = 0) ∧ t.negativeFlag = s.a.getLsbD 7 ∧
    t.reservedBits = s.reservedBits ∧ t.a = s.a ∧ t.y = s.y ∧ t.pc = s.pc ∧ t.seq = s.seq ∧
    ∀ addr : Address, t.byteAt addr = s.byteAt addr

/-- INX completes in every state: X is (X + 1) mod 256, Z exactly when the old X was 0xFF, N exactly when
it was in 0x7F..0xFE, nothing else changes (R90, R91). -/
def Obligations.InxExecutes : Prop :=
  ∀ s : State, ∃ t, exec .inx s = .next t ∧
    t.x.toNat = (s.x.toNat + 1) % 256 ∧ (t.zeroFlag = true ↔ s.x = 0xFF) ∧
    (t.negativeFlag = true ↔ 0x7F ≤ s.x.toNat ∧ s.x.toNat ≤ 0xFE) ∧
    t.reservedBits = s.reservedBits ∧ t.a = s.a ∧ t.y = s.y ∧ t.pc = s.pc ∧ t.seq = s.seq ∧
    ∀ addr : Address, t.byteAt addr = s.byteAt addr

/-- HLT completes in every state: the sequencer is halted and nothing else changes (R95; that Halted is a
mark in the state is the model's choice, log 1). -/
def Obligations.HltExecutes : Prop :=
  ∀ s : State, ∃ t, exec .hlt s = .next t ∧ t.seq = .halted ∧
    t.a = s.a ∧ t.x = s.x ∧ t.y = s.y ∧ t.p = s.p ∧ t.pc = s.pc ∧
    ∀ addr : Address, t.byteAt addr = s.byteAt addr

/-- `n` consecutive INX add `n` modulo 256 to X, and 256 of them return X to its starting value (R90). -/
def Obligations.ConsecutiveInxWrap : Prop :=
  (∀ (n : Nat) (s : State), ∃ t, execTimes .inx n s = some t ∧
    t.x.toNat = (s.x.toNat + n) % 256 ∧ t.a = s.a ∧ t.y = s.y) ∧
  (∀ s : State, ∃ t, execTimes .inx 256 s = some t ∧ t.x = s.x)

/-! ### One step (`40_execution_loop.md`) -/

/-- A step runs the decoded instruction: pc moves past its bytes, without wrapping, and then its meaning
applies (R67 to R70). -/
def Obligations.StepRunsDecodedInstruction : Prop :=
  ∀ (s : State) (i : Instr) (rest : List Byte), s.seq = .fetch →
    decode s.bytesAtPc = .ok (i, rest) → i.wellFormed = true →
    step s = exec i (s.setPc (s.pc + BitVec.ofNat 16 i.length)) ∧
    (s.pc + BitVec.ofNat 16 i.length).toNat = s.pc.toNat + i.length

/-- The table's word placed by `withFetchWord` is the instruction the next step runs; registers and every
other byte stay. -/
def Obligations.PlacedWordIsTheNextInstruction : Prop :=
  ∀ (s : State) (nbits w : Nat) (i : Instr), Memory.wf s.mem = true → s.pc.toNat ≤ 0xFFFD →
    decodeTableWord nbits w = some i →
    step (s.withFetchWord nbits w) =
      exec i ((s.withFetchWord nbits w).setPc (s.pc + BitVec.ofNat 16 i.length)) ∧
    (s.withFetchWord nbits w).a = s.a ∧ (s.withFetchWord nbits w).x = s.x ∧
    (s.withFetchWord nbits w).y = s.y ∧ (s.withFetchWord nbits w).p = s.p ∧
    (s.withFetchWord nbits w).pc = s.pc ∧
    ∀ addr : Address, addr ≠ s.pc → addr ≠ s.pc + 1 →
      (s.withFetchWord nbits w).byteAt addr = s.byteAt addr

/-- LDA # as a whole step, with both bytes in range (R80: `A <- mem[a+1]`, P, `pc <- a + 2`). -/
def Obligations.LdaImmStep : Prop :=
  ∀ s : State, s.seq = .fetch → s.pc.toNat ≤ 0xFFFD → s.byteAt s.pc = 0xA9#8 →
    step s = .next { s with
      a := s.byteAt (s.pc + 1)
      p := (s.p &&& 0x7D) ||| (if s.byteAt (s.pc + 1) = 0 then 0x02 else 0)
        ||| (s.byteAt (s.pc + 1) &&& 0x80)
      pc := s.pc + 2 }

/-- TAX as a whole step (R85: `X <- A`, P, `pc <- a + 1`). -/
def Obligations.TaxStep : Prop :=
  ∀ s : State, s.seq = .fetch → s.pc.toNat ≤ 0xFFFE → s.byteAt s.pc = 0xAA#8 →
    step s = .next { s with
      x := s.a
      p := (s.p &&& 0x7D) ||| (if s.a = 0 then 0x02 else 0) ||| (s.a &&& 0x80)
      pc := s.pc + 1 }

/-- INX as a whole step (R90: `X <- r`, P, `pc <- a + 1`, with r the old X plus 1 modulo 256). -/
def Obligations.InxStep : Prop :=
  ∀ s : State, s.seq = .fetch → s.pc.toNat ≤ 0xFFFE → s.byteAt s.pc = 0xE8#8 →
    ∃ r : Byte, r.toNat = (s.x.toNat + 1) % 256 ∧
      step s = .next { s with
        x := r
        p := (s.p &&& 0x7D) ||| (if r = 0 then 0x02 else 0) ||| (r &&& 0x80)
        pc := s.pc + 1 }

/-- HLT as a whole step, and that no later step does anything: "no further fetch occurs" (R95). That
Halted is a mark in the state which a step keeps is the model's choice (log 1, log 2). -/
def Obligations.HltStepEndsTheRun : Prop :=
  ∀ s : State, s.seq = .fetch → s.pc.toNat ≤ 0xFFFE → s.byteAt s.pc = 0x00#8 →
    step s = .next { s with pc := s.pc + 1, seq := .halted } ∧
    ∀ n : Nat, Host.Core.run Sys2Proof.core (n + 1) s = .next { s with pc := s.pc + 1, seq := .halted }

/-- Exactly when a step faults, with which data, and what state is left (R55, R101, R102, R104, R106,
R107). BoundsViolation, the advanced `ip` and the state left are the spec's own decisions D1, D5 and D6
(log 5). -/
def Obligations.StepFaultsExactlyWhen : Prop :=
  ∀ (s : State) (f : Fault), step s = .fault f ↔ s.seq = .fetch ∧
    ((s.pc = 0xFFFF ∧ f = .boundsViolation 0xFFFF s) ∨
     (s.pc ≠ 0xFFFF ∧ s.byteAt s.pc ≠ 0xA9#8 ∧ s.byteAt s.pc ≠ 0xAA#8 ∧ s.byteAt s.pc ≠ 0xE8#8 ∧
        s.byteAt s.pc ≠ 0x00#8 ∧
        f = .unimplementedOpcode (s.byteAt s.pc) (s.pc + 1) { s with pc := s.pc + 1 }) ∨
     (s.pc = 0xFFFE ∧ s.byteAt s.pc = 0xA9#8 ∧
        f = .boundsViolation 0xFFFF { s with pc := 0xFFFF }))

/-- Step is total: it answers a next state or a fault, never a refusal (R70). -/
def Obligations.StepIsTotal : Prop :=
  ∀ s : State, (∃ t, step s = .next t) ∨ (∃ f, step s = .fault f)

/-- A step that answers a next state moved pc past the instruction and never wrapped it (R18, R74). -/
def Obligations.PcAdvancesByTheLength : Prop :=
  ∀ s t : State, s.seq = .fetch → step s = .next t →
    ∃ (i : Instr) (rest : List Byte), decode s.bytesAtPc = .ok (i, rest) ∧
      t.pc.toNat = s.pc.toNat + i.length ∧ (i.length = 1 ∨ i.length = 2)

/-- What each step leaves unchanged, by the opcode it runs (R75, R11, R12, R17): Y, the reserved bits and
all of memory always; A but by LDA #; X but by TAX and INX; P by HLT. That HLT sets a mark in the state is the model's
choice (log 1), and so is the clause that a step of a halted state answers that state (log 2). -/
def Obligations.StepFrame : Prop :=
  ∀ s t : State, step s = .next t →
    SameUntouched s t ∧
    (s.seq = .halted → t = s) ∧
    (s.byteAt s.pc ≠ 0xA9#8 → t.a = s.a) ∧
    (s.byteAt s.pc ≠ 0xAA#8 → s.byteAt s.pc ≠ 0xE8#8 → t.x = s.x) ∧
    (s.byteAt s.pc = 0x00#8 → t.p = s.p ∧ t.seq = .halted) ∧
    (s.byteAt s.pc ≠ 0x00#8 → t.seq = s.seq)

/-- The invariant: memory canonical with nothing at 0xFFFF, a halted sequencer right behind a halt
opcode. Every step keeps it. The halted mark is the model's (log 1). -/
def Obligations.StepKeepsInv : Prop :=
  ∀ s t : State, Inv s → step s = .next t → Inv t

/-- The state after reset meets the invariant and is what POWER_ON and then RESET leave (R120 to R122). -/
def Obligations.ResetStateMeetsInv : Prop :=
  Inv State.reset ∧ hostReset powerOn = .ok State.reset

/-! ### Runs (`40_execution_loop.md` R71 to R75) -/

/-- EXECUTE always ends with an outcome, and at most 65535 steps of a run go on (R73). -/
def Obligations.EveryRunEndsWithinTheBound : Prop :=
  (∀ s : State, (∃ t, RunHalts s t) ∨ (∃ f, RunFaults s f)) ∧
  (∀ (s t : State) (n : Nat), Host.Core.run Sys2Proof.core n s = .next t → t.seq = .fetch → n ≤ 65535)

/-- The bound of R73 is reached: some run has 65535 steps that go on and faults in the 65536th. -/
def Obligations.LongestRunReachesTheBound : Prop :=
  ∃ s t : State, Memory.wf s.mem = true ∧ Host.Core.run Sys2Proof.core 65535 s = .next t ∧
    t.seq = .fetch ∧ step t = .fault (.boundsViolation 0xFFFF t)

/-- EXECUTE is the iteration of step (R71): it halts with `t` exactly when some number of steps reaches a
halted state that is `t` but for the mark, which the returned state no longer holds (R22, the spec's decision
D8; log 1, log 5), and faults with `f` exactly when some number of steps does. -/
def Obligations.ExecuteIteratesStep : Prop :=
  ∀ s : State,
    (∀ t, RunHalts s t ↔
      ∃ n u, Host.Core.run Sys2Proof.core n { s with seq := .fetch } = .next u ∧ u.seq = .halted ∧
        t = { u with seq := .fetch }) ∧
    (∀ f, RunFaults s f ↔
      ∃ n, Host.Core.run Sys2Proof.core n { s with seq := .fetch } = .fault f)

/-- A run never changes Y, the reserved bits of P or memory, however it ends (R75). -/
def Obligations.RunLeavesUntouchedState : Prop :=
  ∀ s : State, (∀ t, RunHalts s t → SameUntouched s t) ∧
    (∀ f, RunFaults s f → SameUntouched s f.stateLeft)

/-- How a run ends (R71, R101, R102, R112): Halted right behind a halt opcode; UnimplementedOpcode with
the offending byte right before `ip`, where pc is left; BoundsViolation at 0xFFFF, where pc is left. The
last two rest on the spec's decisions D1, D5 and D6 (log 5). -/
def Obligations.RunOutcomes : Prop :=
  ∀ s : State,
    (∀ t, RunHalts s t → 0 < t.pc.toNat ∧ s.byteAt (t.pc - 1) = 0x00#8) ∧
    (∀ f, RunFaults s f →
      (∃ op ip left, f = .unimplementedOpcode op ip left ∧ left.pc = ip ∧ 0 < ip.toNat ∧
        s.byteAt (ip - 1) = op ∧ op ≠ 0xA9#8 ∧ op ≠ 0xAA#8 ∧ op ≠ 0xE8#8 ∧ op ≠ 0x00#8) ∨
      (∃ left, f = .boundsViolation 0xFFFF left ∧ left.pc = 0xFFFF))

/-- Nothing of an earlier outcome enters a later run: EXECUTE answers the same wherever the sequencer
stood (R72, the spec's decision D8; log 3, log 5). -/
def Obligations.ExecuteForgetsEarlierOutcome : Prop :=
  ∀ (s : State) (q : Sequencer), execute { s with seq := q } = execute s

/-- Nothing of a run is retained (R22, R72, the spec's decision D8; the mark is the model's own, log 1,
log 3): a run hands back its state with the sequencer at Fetch, however it ends; and no operation of the host
depends on the mark or leaves it at Halted. -/
def Obligations.NothingOfARunIsRetained : Prop :=
  (∀ s t, RunHalts s t → t.seq = .fetch) ∧
  (∀ s f, RunFaults s f → f.stateLeft.seq = .fetch) ∧
  (∀ (op : HostOp) (s : State) (q : Sequencer), perform op { s with seq := q } = perform op s) ∧
  (∀ (op : HostOp) (s : State), (perform op s).2.seq = .fetch)

/-- No instruction reads Y, a reserved bit of P, or a flag (R13, R15, R17): two states that agree in A, X,
pc and memory run to the same outcome with the same A, X, pc and memory, and to the same flags if they
began with the same flags. -/
def Obligations.UnreadStateDoesNotInfluenceARun : Prop :=
  ∀ s s' : State, SameReadState s s' →
    (∀ t, RunHalts s t → ∃ t', RunHalts s' t' ∧ SameReadState t t' ∧
      (SameFlags s s' → SameFlags t t')) ∧
    (∀ f, RunFaults s f → ∃ f', RunFaults s' f' ∧ SameFaultData f f' ∧
      SameReadState f.stateLeft f'.stateLeft ∧
      (SameFlags s s' → SameFlags f.stateLeft f'.stateLeft))

/-! ### Memory (`20_memory.md`) -/

/-- A byte written at a populated address reads back, every other byte and every register stays (R32,
R33, R39); at 0xFFFF both accesses fault and nothing changes (R31, the spec's decision D1; log 5). -/
def Obligations.ByteAccessRule : Prop :=
  ∀ (s : State) (addr : Address) (v : Byte), Memory.wf s.mem = true →
    (addr ≠ 0xFFFF → ∃ t, memWrite s addr v = .ok t ∧ memRead t addr = .ok v ∧
      (∀ b : Address, b ≠ addr → t.byteAt b = s.byteAt b) ∧
      t.a = s.a ∧ t.x = s.x ∧ t.y = s.y ∧ t.p = s.p ∧ t.pc = s.pc ∧ t.seq = s.seq) ∧
    (addr = 0xFFFF → memWrite s addr v = .error (.boundsViolation 0xFFFF s) ∧
      memRead s addr = .error (.boundsViolation 0xFFFF s))

/-- A word written at an address below 0xFFFE lies low byte first, reads back as a word and as its two
bytes, and leaves every other byte and every register (R34 to R37). -/
def Obligations.WordAccessIsLittleEndian : Prop :=
  ∀ (s : State) (addr v : Address), Memory.wf s.mem = true → addr.toNat ≤ 0xFFFD →
    ∃ t, memWrite16 s addr v = .ok t ∧ memRead16 t addr = .ok v ∧
      (t.byteAt addr).toNat = v.toNat % 256 ∧ (t.byteAt (addr + 1)).toNat = v.toNat / 256 ∧
      (∀ b : Address, b ≠ addr → b ≠ addr + 1 → t.byteAt b = s.byteAt b) ∧
      t.a = s.a ∧ t.x = s.x ∧ t.y = s.y ∧ t.p = s.p ∧ t.pc = s.pc ∧ t.seq = s.seq

/-- At the top of memory the 16-bit accesses fault; the write at 0xFFFE leaves its low byte written, the
others change nothing (R34, R35; the spec's decisions D2 and D3; log 5). -/
def Obligations.WordAccessAtTheTop : Prop :=
  ∀ (s : State) (v : Address), Memory.wf s.mem = true →
    memRead16 s 0xFFFE = .error (.boundsViolation 0xFFFF s) ∧
    memRead16 s 0xFFFF = .error (.boundsViolation 0xFFFF s) ∧
    memWrite16 s 0xFFFF v = .error (.boundsViolation 0xFFFF s) ∧
    ∃ left : State, memWrite16 s 0xFFFE v = .error (.boundsViolation 0xFFFF left) ∧
      (left.byteAt 0xFFFE).toNat = v.toNat % 256 ∧
      (∀ b : Address, b ≠ 0xFFFE → left.byteAt b = s.byteAt b) ∧
      left.a = s.a ∧ left.x = s.x ∧ left.y = s.y ∧ left.p = s.p ∧ left.pc = s.pc

/-- Fetch sees what the host wrote at pc (R44): there is no instruction cache. -/
def Obligations.FetchSeesHostWrite : Prop :=
  ∀ (s : State) (b : Byte), Memory.wf s.mem = true → s.pc.toNat ≤ 0xFFFE →
    ∃ t, memWrite s s.pc b = .ok t ∧ fetchByte t = .ok (b, { t with pc := s.pc + 1 })

/-- Canonical memories that read alike at every address are equal data. -/
def Obligations.CanonicalMemoryIsExtensional : Prop :=
  ∀ m n : Memory, Memory.wf m = true → Memory.wf n = true →
    (∀ a : Nat, Memory.byteAt m a = Memory.byteAt n a) → m = n

/-! ### Reset, loading, the host (`70_reset_and_hazards.md`) -/

/-- POWER_ON brings every register and every byte from 0x0000 to 0xFFFE to zero and cannot fail (R120). -/
def Obligations.PowerOnZeroesEverything : Prop :=
  ∀ s : State, ∃ t, perform .powerOn s = (.done, t) ∧
    t.a = 0 ∧ t.x = 0 ∧ t.y = 0 ∧ t.p = 0 ∧ t.pc = 0 ∧
    ∀ addr : Address, addr ≠ 0xFFFF → memRead t addr = .ok 0

/-- RESET clears A, X and all of P, loads pc from the reset vector and leaves Y and every byte of memory
(R121); it succeeds in every state. -/
def Obligations.ResetRule : Prop :=
  ∀ s : State, ∃ t, hostReset s = .ok t ∧ t.a = 0 ∧ t.x = 0 ∧ t.p = 0 ∧
    t.pc.toNat = (s.byteAt 0xFFFD).toNat * 256 + (s.byteAt 0xFFFC).toNat ∧
    t.y = s.y ∧ ∀ addr : Address, t.byteAt addr = s.byteAt addr

/-- LOAD of a program that fits copies it to ORIGIN, then writes ORIGIN to the reset vector, which wins
over program bytes there, and changes no register and no other byte (R123, R125, R129). -/
def Obligations.LoadInstallsProgramAndVector : Prop :=
  ∀ (s : State) (program : List Byte), Memory.wf s.mem = true → program.length ≤ 32767 →
    ∃ t, hostLoad s program = .ok t ∧
      t.byteAt 0xFFFC = 0x00#8 ∧ t.byteAt 0xFFFD = 0x80 ∧
      (∀ (k : Nat) (h : k < program.length), 0x8000 + k ≠ 0xFFFC → 0x8000 + k ≠ 0xFFFD →
        Memory.byteAt t.mem (0x8000 + k) = program[k]) ∧
      (∀ a : Nat, a < 0x8000 ∨ 0x8000 + program.length ≤ a → a ≠ 0xFFFC → a ≠ 0xFFFD →
        Memory.byteAt t.mem a = Memory.byteAt s.mem a) ∧
      t.a = s.a ∧ t.x = s.x ∧ t.y = s.y ∧ t.p = s.p ∧ t.pc = s.pc

/-- LOAD of a longer program fails and changes nothing (R124, the spec's decision D7; log 5), and
LOAD_AND_RUN ends there (R126, D15). -/
def Obligations.OversizedLoadIsRefused : Prop :=
  ∀ (s : State) (program : List Byte), 32767 < program.length →
    hostLoad s program = .error (.loadTooLarge program.length s) ∧
    loadAndRun s program = some (.error (.loadTooLarge program.length s))

/-- After LOAD and then RESET, pc is ORIGIN for every program that fits, the empty one included, A, X and
P are clear and Y is kept (R122, source property S8). -/
def Obligations.LoadThenResetStartsAtOrigin : Prop :=
  ∀ (s : State) (program : List Byte), Memory.wf s.mem = true → program.length ≤ 32767 →
    ∃ t u, hostLoad s program = .ok t ∧ hostReset t = .ok u ∧
      u.pc = 0x8000 ∧ u.a = 0 ∧ u.x = 0 ∧ u.p = 0 ∧ u.y = s.y

/-- LOAD_AND_RUN of a program that fits is LOAD, RESET, EXECUTE, and always has an outcome (R126). -/
def Obligations.LoadAndRunComposesTheThree : Prop :=
  ∀ (s : State) (program : List Byte), program.length ≤ 32767 →
    ∃ t u r, hostLoad s program = .ok t ∧ hostReset t = .ok u ∧ execute u = some r ∧
      loadAndRun s program = some r

/-- The host reads and writes each register with its full value and no side effect (R20, R15). -/
def Obligations.HostRegisterAccess : Prop :=
  (∀ (s : State) (r : Reg) (v : Byte), ∃ t, perform (.writeReg r v) s = (.done, t) ∧
    perform (.readReg r) t = (.byte v, t) ∧
    (∀ q : Reg, q ≠ r → t.readReg q = s.readReg q) ∧ t.pc = s.pc ∧
    ∀ addr : Address, t.byteAt addr = s.byteAt addr) ∧
  (∀ (s : State) (v : Address), ∃ t, perform (.writePc v) s = (.done, t) ∧
    perform .readPc t = (.word v, t) ∧ (∀ q : Reg, t.readReg q = s.readReg q) ∧
    ∀ addr : Address, t.byteAt addr = s.byteAt addr)

/-- Every operation of the host, whatever its arguments and however it ends, keeps memory canonical, with
nothing at 0xFFFF (R19, R31, R127). -/
def Obligations.HostOperationsKeepMemoryCanonical : Prop :=
  ∀ (op : HostOp) (s : State), Memory.wf s.mem = true → Memory.wf (perform op s).2.mem = true
end

