-- ==== Sys2Proof/Laws/Decode.lean ====
section
/-! SUPPORT. What the decoder answers for each opcode byte. -/

namespace Sys2Proof

@[simp] theorem decodeOpcode_A9 : decodeOpcode 0xA9#8 = some .ldaImm := rfl
@[simp] theorem decodeOpcode_AA : decodeOpcode 0xAA#8 = some .tax := rfl
@[simp] theorem decodeOpcode_E8 : decodeOpcode 0xE8#8 = some .inx := rfl
@[simp] theorem decodeOpcode_00 : decodeOpcode 0x00#8 = some .hlt := rfl

/-- Every byte is one of the four opcodes or unimplemented, and Decode says which (R53 to R55). -/
theorem decodeOpcode_cases (b : Byte) :
    (b = 0xA9#8 ∧ decodeOpcode b = some .ldaImm) ∨ (b = 0xAA#8 ∧ decodeOpcode b = some .tax) ∨
    (b = 0xE8#8 ∧ decodeOpcode b = some .inx) ∨ (b = 0x00#8 ∧ decodeOpcode b = some .hlt) ∨
    ((b ≠ 0xA9#8 ∧ b ≠ 0xAA#8 ∧ b ≠ 0xE8#8 ∧ b ≠ 0x00#8) ∧ decodeOpcode b = none) := by
  unfold decodeOpcode
  split_ifs <;> simp_all

theorem decodeOpcode_ldaImm {b : Byte} (h : decodeOpcode b = some .ldaImm) : b = 0xA9#8 := by
  rcases decodeOpcode_cases b with c | c | c | c | c <;> rw [c.2] at h <;> first | exact c.1 | cases h

theorem decodeOpcode_tax {b : Byte} (h : decodeOpcode b = some .tax) : b = 0xAA#8 := by
  rcases decodeOpcode_cases b with c | c | c | c | c <;> rw [c.2] at h <;> first | exact c.1 | cases h

theorem decodeOpcode_inx {b : Byte} (h : decodeOpcode b = some .inx) : b = 0xE8#8 := by
  rcases decodeOpcode_cases b with c | c | c | c | c <;> rw [c.2] at h <;> first | exact c.1 | cases h

theorem decodeOpcode_hlt {b : Byte} (h : decodeOpcode b = some .hlt) : b = 0x00#8 := by
  rcases decodeOpcode_cases b with c | c | c | c | c <;> rw [c.2] at h <;> first | exact c.1 | cases h

/-! ### The static walk, one equation per opcode -/

theorem disassemble_ldaImm (imm8 : Byte) (rest : List Byte) :
    disassemble (0xA9#8 :: imm8 :: rest) = (disassemble rest).map (Instr.ldaImm imm8 :: ·) := by
  rw [disassemble]; simp

theorem disassemble_ldaImm_cut : disassemble [0xA9#8] = .error .noOperand := rfl

theorem disassemble_tax (rest : List Byte) :
    disassemble (0xAA#8 :: rest) = (disassemble rest).map (Instr.tax :: ·) := by
  cases rest <;> rfl

theorem disassemble_inx (rest : List Byte) :
    disassemble (0xE8#8 :: rest) = (disassemble rest).map (Instr.inx :: ·) := by
  cases rest <;> rfl

theorem disassemble_hlt (rest : List Byte) :
    disassemble (0x00#8 :: rest) = (disassemble rest).map (Instr.hlt :: ·) := by
  cases rest <;> rfl

theorem disassemble_unimplemented {op : Byte} (rest : List Byte) (h : decodeOpcode op = none) :
    disassemble (op :: rest) = .error (.unimplementedOpcode op) := by
  cases rest <;> (rw [disassemble]; simp [h])

end Sys2Proof
end

