-- ==== Sys2Proof/Laws/State.lean ====
section
/-! SUPPORT. What each named update of a field does to each field of State: it writes its own and keeps
the others. -/

namespace Sys2Proof.Machine

variable (s : State)

@[simp] theorem State.setA_a (v : Byte) : (s.setA v).a = v := rfl
@[simp] theorem State.setA_x (v : Byte) : (s.setA v).x = s.x := rfl
@[simp] theorem State.setA_y (v : Byte) : (s.setA v).y = s.y := rfl
@[simp] theorem State.setA_p (v : Byte) : (s.setA v).p = s.p := rfl
@[simp] theorem State.setA_pc (v : Byte) : (s.setA v).pc = s.pc := rfl
@[simp] theorem State.setA_mem (v : Byte) : (s.setA v).mem = s.mem := rfl
@[simp] theorem State.setA_seq (v : Byte) : (s.setA v).seq = s.seq := rfl

@[simp] theorem State.setX_a (v : Byte) : (s.setX v).a = s.a := rfl
@[simp] theorem State.setX_x (v : Byte) : (s.setX v).x = v := rfl
@[simp] theorem State.setX_y (v : Byte) : (s.setX v).y = s.y := rfl
@[simp] theorem State.setX_p (v : Byte) : (s.setX v).p = s.p := rfl
@[simp] theorem State.setX_pc (v : Byte) : (s.setX v).pc = s.pc := rfl
@[simp] theorem State.setX_mem (v : Byte) : (s.setX v).mem = s.mem := rfl
@[simp] theorem State.setX_seq (v : Byte) : (s.setX v).seq = s.seq := rfl

@[simp] theorem State.setY_a (v : Byte) : (s.setY v).a = s.a := rfl
@[simp] theorem State.setY_x (v : Byte) : (s.setY v).x = s.x := rfl
@[simp] theorem State.setY_y (v : Byte) : (s.setY v).y = v := rfl
@[simp] theorem State.setY_p (v : Byte) : (s.setY v).p = s.p := rfl
@[simp] theorem State.setY_pc (v : Byte) : (s.setY v).pc = s.pc := rfl
@[simp] theorem State.setY_mem (v : Byte) : (s.setY v).mem = s.mem := rfl
@[simp] theorem State.setY_seq (v : Byte) : (s.setY v).seq = s.seq := rfl

@[simp] theorem State.setP_a (v : Byte) : (s.setP v).a = s.a := rfl
@[simp] theorem State.setP_x (v : Byte) : (s.setP v).x = s.x := rfl
@[simp] theorem State.setP_y (v : Byte) : (s.setP v).y = s.y := rfl
@[simp] theorem State.setP_p (v : Byte) : (s.setP v).p = v := rfl
@[simp] theorem State.setP_pc (v : Byte) : (s.setP v).pc = s.pc := rfl
@[simp] theorem State.setP_mem (v : Byte) : (s.setP v).mem = s.mem := rfl
@[simp] theorem State.setP_seq (v : Byte) : (s.setP v).seq = s.seq := rfl

@[simp] theorem State.setPc_a (v : Address) : (s.setPc v).a = s.a := rfl
@[simp] theorem State.setPc_x (v : Address) : (s.setPc v).x = s.x := rfl
@[simp] theorem State.setPc_y (v : Address) : (s.setPc v).y = s.y := rfl
@[simp] theorem State.setPc_p (v : Address) : (s.setPc v).p = s.p := rfl
@[simp] theorem State.setPc_pc (v : Address) : (s.setPc v).pc = v := rfl
@[simp] theorem State.setPc_mem (v : Address) : (s.setPc v).mem = s.mem := rfl
@[simp] theorem State.setPc_seq (v : Address) : (s.setPc v).seq = s.seq := rfl

@[simp] theorem State.setMem_a (m : Memory) : (s.setMem m).a = s.a := rfl
@[simp] theorem State.setMem_x (m : Memory) : (s.setMem m).x = s.x := rfl
@[simp] theorem State.setMem_y (m : Memory) : (s.setMem m).y = s.y := rfl
@[simp] theorem State.setMem_p (m : Memory) : (s.setMem m).p = s.p := rfl
@[simp] theorem State.setMem_pc (m : Memory) : (s.setMem m).pc = s.pc := rfl
@[simp] theorem State.setMem_mem (m : Memory) : (s.setMem m).mem = m := rfl
@[simp] theorem State.setMem_seq (m : Memory) : (s.setMem m).seq = s.seq := rfl

@[simp] theorem State.setSeq_a (q : Sequencer) : (s.setSeq q).a = s.a := rfl
@[simp] theorem State.setSeq_x (q : Sequencer) : (s.setSeq q).x = s.x := rfl
@[simp] theorem State.setSeq_y (q : Sequencer) : (s.setSeq q).y = s.y := rfl
@[simp] theorem State.setSeq_p (q : Sequencer) : (s.setSeq q).p = s.p := rfl
@[simp] theorem State.setSeq_pc (q : Sequencer) : (s.setSeq q).pc = s.pc := rfl
@[simp] theorem State.setSeq_mem (q : Sequencer) : (s.setSeq q).mem = s.mem := rfl
@[simp] theorem State.setSeq_seq (q : Sequencer) : (s.setSeq q).seq = q := rfl

@[simp] theorem State.setPc_self : s.setPc s.pc = s := rfl
@[simp] theorem State.setMem_self : s.setMem s.mem = s := rfl
@[simp] theorem State.setSeq_self : s.setSeq s.seq = s := rfl

@[simp] theorem State.setPc_setPc (u v : Address) : (s.setPc u).setPc v = s.setPc v := rfl
@[simp] theorem State.setSeq_setSeq (q r : Sequencer) : (s.setSeq q).setSeq r = s.setSeq r := rfl
@[simp] theorem State.setMem_setMem (m n : Memory) : (s.setMem m).setMem n = s.setMem n := rfl

/-- The fields decide the state. -/
theorem State.eq_of_fields {s t : State} (ha : s.a = t.a) (hx : s.x = t.x) (hy : s.y = t.y)
    (hp : s.p = t.p) (hpc : s.pc = t.pc) (hmem : s.mem = t.mem) (hseq : s.seq = t.seq) : s = t := by
  cases s; cases t; simp_all

end Sys2Proof.Machine
end

