-- ==== Sys2Proof/Laws/Flags.lean ====
section
/-! SUPPORT. What SetZN writes and what it keeps (R16). -/

namespace Sys2Proof.Machine

@[simp] theorem State.updateZN_a (s : State) (v : Byte) : (s.updateZN v).a = s.a := rfl
@[simp] theorem State.updateZN_x (s : State) (v : Byte) : (s.updateZN v).x = s.x := rfl
@[simp] theorem State.updateZN_y (s : State) (v : Byte) : (s.updateZN v).y = s.y := rfl
@[simp] theorem State.updateZN_p (s : State) (v : Byte) : (s.updateZN v).p = setZN s.p v := rfl
@[simp] theorem State.updateZN_pc (s : State) (v : Byte) : (s.updateZN v).pc = s.pc := rfl
@[simp] theorem State.updateZN_mem (s : State) (v : Byte) : (s.updateZN v).mem = s.mem := rfl
@[simp] theorem State.updateZN_seq (s : State) (v : Byte) : (s.updateZN v).seq = s.seq := rfl

/-- Bit 1 of P after SetZN is Z, the test for zero. -/
theorem setZN_zero (p v : Byte) : (setZN p v).getLsbD 1 = decide (v = 0) := by
  unfold setZN
  by_cases h : v = 0
  · subst h; simp
  · rw [if_neg h, decide_eq_false h]; simp

/-- Bit 7 of P after SetZN is N, bit 7 of the result. -/
theorem setZN_negative (p v : Byte) : (setZN p v).getLsbD 7 = v.getLsbD 7 := by
  unfold setZN
  by_cases h : v = 0
  · subst h; simp
  · rw [if_neg h]; simp

/-- The reserved bits of P are kept. -/
theorem setZN_reserved (p v : Byte) : setZN p v &&& 0x7D = p &&& 0x7D := by
  unfold setZN
  apply BitVec.eq_of_getLsbD_eq
  intro i hi
  by_cases h : v = 0 <;> (simp only [h]; simp only [BitVec.getLsbD_and, BitVec.getLsbD_or]) <;>
    interval_cases i <;> simp

/-- SetZN reads nothing of P but its reserved bits. -/
theorem setZN_of_reserved {p q : Byte} (h : p &&& 0x7D = q &&& 0x7D) (v : Byte) :
    setZN p v = setZN q v := by
  unfold setZN; rw [h]

end Sys2Proof.Machine
end

