-- ==== Sys2Proof/Laws/Memory.lean ====
section
/-! SUPPORT. The laws of the memory array: read after write, other addresses, the canonical form, and that
canonical memories with the same bytes are equal. -/

namespace Sys2Proof.Machine

@[simp] theorem Memory.byteAt_nil (a : Nat) : Memory.byteAt [] a = unlistedByte := rfl

/-- A larger lower bound is a stronger canonical form. -/
theorem Memory.wfFrom_mono {m : Memory} {lo lo' : Nat} (hle : lo' ≤ lo) (h : Memory.wfFrom lo m = true) :
    Memory.wfFrom lo' m = true := by
  cases m with
  | nil => rfl
  | cons c rest =>
    simp only [Memory.wfFrom, Bool.and_eq_true, decide_eq_true_eq] at h ⊢
    exact ⟨⟨⟨by omega, h.1.1.2⟩, h.1.2⟩, h.2⟩

/-- Below the lower bound nothing is listed. -/
theorem Memory.byteAt_below {m : Memory} {lo a : Nat} (h : Memory.wfFrom lo m = true) (hlt : a < lo) :
    Memory.byteAt m a = unlistedByte := by
  induction m generalizing lo with
  | nil => rfl
  | cons c rest ih =>
    simp only [Memory.wfFrom, Bool.and_eq_true, decide_eq_true_eq] at h
    rw [Memory.byteAt, if_neg (by omega)]
    exact ih h.2 (by omega)

/-- The write of a byte keeps the canonical form, its lower bound too. -/
theorem Memory.wfFrom_setByte {m : Memory} {lo a : Nat} (v : Byte) (h : Memory.wfFrom lo m = true)
    (hlo : lo ≤ a) (htop : a ≤ Config.memTop) : Memory.wfFrom lo (Memory.setByte m a v) = true := by
  induction m generalizing lo with
  | nil =>
    unfold Memory.setByte
    split <;> simp_all [Memory.wfFrom]
  | cons c rest ih =>
    simp only [Memory.wfFrom, Bool.and_eq_true, decide_eq_true_eq] at h
    obtain ⟨⟨⟨hk, hktop⟩, hkv⟩, hrest⟩ := h
    rw [Memory.setByte]
    split
    · split
      · simp [Memory.wfFrom, hk, hktop, hkv, hrest]
      · simp [Memory.wfFrom, *]
    · split
      · subst_vars
        split
        · exact Memory.wfFrom_mono (by omega) hrest
        · simp [Memory.wfFrom, *]
      · simp only [Memory.wfFrom, Bool.and_eq_true, decide_eq_true_eq]
        exact ⟨⟨⟨hk, hktop⟩, hkv⟩, ih hrest (by omega)⟩

/-- Every write of a populated byte keeps memory canonical. -/
theorem Memory.wf_setByte {m : Memory} {a : Nat} (v : Byte) (h : Memory.wf m = true)
    (htop : a ≤ Config.memTop) : Memory.wf (Memory.setByte m a v) = true :=
  Memory.wfFrom_setByte v h (Nat.zero_le a) htop

/-- Another address reads as before (of any memory, canonical or not). -/
theorem Memory.byteAt_setByte_other (m : Memory) (a b : Nat) (v : Byte) (hne : b ≠ a) :
    Memory.byteAt (Memory.setByte m a v) b = Memory.byteAt m b := by
  induction m with
  | nil =>
    unfold Memory.setByte
    split
    · rfl
    · simp [Memory.byteAt, Ne.symm hne]
  | cons c rest ih =>
    rw [Memory.setByte]
    split
    · split
      · rfl
      · simp [Memory.byteAt, Ne.symm hne]
    · split
      · subst_vars
        split <;> simp [Memory.byteAt, Ne.symm hne]
      · simp only [Memory.byteAt, ih]

/-- The written address reads as the written byte. -/
theorem Memory.byteAt_setByte_same {m : Memory} {lo : Nat} (a : Nat) (v : Byte)
    (h : Memory.wfFrom lo m = true) : Memory.byteAt (Memory.setByte m a v) a = v := by
  induction m generalizing lo with
  | nil =>
    unfold Memory.setByte
    split <;> simp_all [Memory.byteAt]
  | cons c rest ih =>
    simp only [Memory.wfFrom, Bool.and_eq_true, decide_eq_true_eq] at h
    rw [Memory.setByte]
    split
    · split
      · subst_vars
        rw [Memory.byteAt, if_neg (by omega)]
        exact Memory.byteAt_below h.2 (by omega)
      · simp [Memory.byteAt]
    · split
      · split
        · subst_vars
          exact Memory.byteAt_below h.2 (by omega)
        · simp [Memory.byteAt]
      · rename_i hne
        rw [Memory.byteAt, if_neg (Ne.symm hne)]
        exact ih h.2

/-- Read after write, both cases at once. -/
theorem Memory.byteAt_setByte {m : Memory} (a b : Nat) (v : Byte) (h : Memory.wf m = true) :
    Memory.byteAt (Memory.setByte m a v) b = if b = a then v else Memory.byteAt m b := by
  split
  · subst_vars
    exact Memory.byteAt_setByte_same _ v h
  · exact Memory.byteAt_setByte_other m a b v ‹_›

/-- The first listed cell of a canonical memory does not read as an unlisted byte, so two canonical
memories that list from different addresses differ there. -/
theorem Memory.byteAt_head (k : Nat) (v : Byte) (rest : Memory) : Memory.byteAt ((k, v) :: rest) k = v := by
  simp [Memory.byteAt]

end Sys2Proof.Machine
end

