-- ==== Sys2Proof/Laws/Ops.lean ====
section
/-! SUPPORT. One lemma per shared operation, saying all it can do. -/

namespace Sys2Proof.Machine

/-! ### Bytes and words -/

@[simp] theorem lowByte_joinBytes (hi lo : Byte) : lowByte (joinBytes hi lo) = lo := by
  apply BitVec.eq_of_getLsbD_eq
  intro i hi'
  simp only [lowByte, joinBytes, BitVec.getLsbD_setWidth, BitVec.getLsbD_append]
  simp [hi']

@[simp] theorem highByte_joinBytes (hi lo : Byte) : highByte (joinBytes hi lo) = hi := by
  apply BitVec.eq_of_getLsbD_eq
  intro i hi'
  simp only [highByte, joinBytes, BitVec.getLsbD_setWidth, BitVec.getLsbD_ushiftRight,
    BitVec.getLsbD_append]
  simp [hi']

@[simp] theorem joinBytes_high_low (v : Address) : joinBytes (highByte v) (lowByte v) = v := by
  apply BitVec.eq_of_getLsbD_eq
  intro i hi'
  simp only [highByte, lowByte, joinBytes, BitVec.getLsbD_append, BitVec.getLsbD_setWidth,
    BitVec.getLsbD_ushiftRight]
  by_cases h : i < 8
  · simp [h]
  · have e : 8 + (i - 8) = i := by omega
    simp [h, e]
    omega

theorem toNat_joinBytes (hi lo : Byte) : (joinBytes hi lo).toNat = hi.toNat * 256 + lo.toNat := by
  unfold joinBytes
  rw [BitVec.toNat_append, ← Nat.shiftLeft_add_eq_or_of_lt lo.isLt, Nat.shiftLeft_eq]

/-! ### The access primitives -/

theorem memRead_populated {s : State} {a : Address} (h : a.toNat ≤ Config.memTop) :
    memRead s a = .ok (s.byteAt a) := by
  rw [memRead, if_neg (by omega)]; rfl

theorem memRead_top {s : State} {a : Address} (h : Config.memTop < a.toNat) :
    memRead s a = .error (.boundsViolation a s) := by
  rw [memRead, if_pos h]; rfl

theorem memWrite_populated {s : State} {a : Address} (v : Byte) (h : a.toNat ≤ Config.memTop) :
    memWrite s a v = .ok (s.setMem (Memory.setByte s.mem a.toNat v)) := by
  rw [memWrite, if_neg (by omega)]

theorem memWrite_top {s : State} {a : Address} (v : Byte) (h : Config.memTop < a.toNat) :
    memWrite s a v = .error (.boundsViolation a s) := by
  rw [memWrite, if_pos h]; rfl

/-- The only address that is not populated (R31). -/
theorem not_populated_iff (a : Address) : Config.memTop < a.toNat ↔ a = 0xFFFF := by
  have := a.isLt
  unfold Config.memTop
  constructor
  · intro h
    apply BitVec.eq_of_toNat_eq
    simp; omega
  · rintro rfl; decide

/-- All a byte write can do: answer the state with that one byte written, or fault and change nothing. -/
theorem memWrite_cases (s : State) (a : Address) (v : Byte) :
    (a.toNat ≤ Config.memTop ∧ memWrite s a v = .ok (s.setMem (Memory.setByte s.mem a.toNat v))) ∨
    (a = 0xFFFF ∧ memWrite s a v = .error (.boundsViolation a s)) := by
  by_cases h : a.toNat ≤ Config.memTop
  · exact .inl ⟨h, memWrite_populated v h⟩
  · exact .inr ⟨(not_populated_iff a).mp (by omega), memWrite_top v (by omega)⟩

/-- The advance of a pc that a fetch succeeded at does not wrap (R18). -/
theorem toNat_succ_of_populated {a : Address} (h : a.toNat ≤ Config.memTop) :
    (a + 1).toNat = a.toNat + 1 := by
  unfold Config.memTop at h
  rw [BitVec.toNat_add]
  simp; omega

theorem memRead16_populated {s : State} {a : Address} (h : a.toNat + 1 ≤ Config.memTop) :
    memRead16 s a = .ok (joinBytes (s.byteAt (a + 1)) (s.byteAt a)) := by
  have e := toNat_succ_of_populated (a := a) (by omega)
  rw [memRead16, memRead_populated (by omega)]
  simp only
  rw [memRead_populated (by omega)]

theorem memWrite16_populated {s : State} {a : Address} (v : Address) (h : a.toNat + 1 ≤ Config.memTop) :
    memWrite16 s a v = .ok (s.setMem (Memory.setByte (Memory.setByte s.mem a.toNat (lowByte v))
      (a.toNat + 1) (highByte v))) := by
  have e := toNat_succ_of_populated (a := a) (by omega)
  rw [memWrite16, memWrite_populated _ (by omega)]
  simp only
  rw [memWrite_populated _ (by omega), e]
  simp

/-! ### The instruction stream -/

theorem fetchByte_populated {s : State} (h : s.pc.toNat ≤ Config.memTop) :
    fetchByte s = .ok (s.byteAt s.pc, s.setPc (s.pc + 1)) := by
  rw [fetchByte, memRead_populated h]

theorem fetchByte_top {s : State} (h : Config.memTop < s.pc.toNat) :
    fetchByte s = .error (.boundsViolation s.pc s) := by
  rw [fetchByte, memRead_top h]

end Sys2Proof.Machine
end

