-- ==== Sys2Proof/Laws/HostOps.lean ====
section
/-! SUPPORT. The spec lemmas of RESET, of LOAD's loop and of EXECUTE's loop. -/

namespace Sys2Proof.Machine

/-- The programs LOAD accepts (R124). -/
theorem programFits_iff (program : List Byte) : programFits program = true ↔ program.length ≤ 32767 := by
  rw [programFits, decide_eq_true_eq, Config.maxProgram]

/-- RESET answers a state from every state, and this one (R121). -/
theorem hostReset_eq (s : State) :
    hostReset s = .ok ((((((s.setA 0x00).setX 0x00).setP 0x00).setSeq .fetch)).setPc
      (joinBytes (s.byteAt 0xFFFD) (s.byteAt 0xFFFC))) := by
  unfold hostReset
  simp only
  rw [memRead16_populated (by decide)]
  rfl

/-- LOAD's loop, where it fits below the top of memory, answers a state that differs in memory alone. -/
theorem copyBytes_ok (s : State) (a : Address) (bytes : List Byte)
    (h : a.toNat + bytes.length ≤ 65535) : ∃ m, copyBytes s a bytes = .ok (s.setMem m) := by
  induction bytes generalizing s a with
  | nil => exact ⟨s.mem, rfl⟩
  | cons b rest ih =>
    rw [List.length_cons] at h
    have hle : a.toNat ≤ Config.memTop := by unfold Config.memTop; omega
    have e := toNat_succ_of_populated hle
    rw [copyBytes, memWrite_populated b hle]
    obtain ⟨m, hm⟩ := ih (s.setMem (Memory.setByte s.mem a.toNat b)) (a + 1) (by omega)
    exact ⟨m, by simpa using hm⟩

/-- All LOAD's loop does to a canonical memory: it stays canonical, holds the bytes at rising addresses,
and keeps every other byte. -/
theorem copyBytes_spec (s : State) (a : Address) (bytes : List Byte) (hw : Memory.wf s.mem = true)
    (h : a.toNat + bytes.length ≤ 65535) :
    ∃ m, copyBytes s a bytes = .ok (s.setMem m) ∧ Memory.wf m = true ∧
      (∀ k (hk : k < bytes.length), Memory.byteAt m (a.toNat + k) = bytes[k]) ∧
      ∀ b, b < a.toNat ∨ a.toNat + bytes.length ≤ b → Memory.byteAt m b = Memory.byteAt s.mem b := by
  induction bytes generalizing s a with
  | nil => exact ⟨s.mem, rfl, hw, fun k hk => absurd hk (Nat.not_lt_zero k), fun _ _ => rfl⟩
  | cons c rest ih =>
    simp only [List.length_cons] at h ⊢
    have hle : a.toNat ≤ Config.memTop := by unfold Config.memTop; omega
    have e := toNat_succ_of_populated hle
    rw [copyBytes, memWrite_populated c hle]
    obtain ⟨m, h1, h2, h3, h4⟩ := ih (s.setMem (Memory.setByte s.mem a.toNat c)) (a + 1)
      (Memory.wf_setByte c hw hle) (by omega)
    rw [e] at h3 h4
    refine ⟨m, by simpa using h1, h2, ?_, ?_⟩
    · intro k hk
      cases k with
      | zero =>
        rw [Nat.add_zero, h4 _ (by omega), State.setMem_mem, Memory.byteAt_setByte _ _ _ hw, if_pos rfl]
        rfl
      | succ k =>
        rw [show a.toNat + (k + 1) = a.toNat + 1 + k by omega, h3 k (by omega)]
        rfl
    · intro b hb
      rw [h4 b (by omega), State.setMem_mem, Memory.byteAt_setByte _ _ _ hw, if_neg (by omega)]

/-- EXECUTE's loop, one step of it. -/
theorem runLoop_succ (n : Nat) (s : State) :
    runLoop (n + 1) s = match step s with
      | .fault f => some (.error f)
      | .refused _ => none
      | .next t => match t.seq with
        | .halted => some (.ok t)
        | .fetch => runLoop n t := rfl

/-- EXECUTE ends Halted in `t` exactly when its loop halts in a state that is `t` but for the mark. -/
theorem execute_ok_iff {s t : State} : execute s = some (.ok t) ↔
    ∃ u, runLoop Config.maxSteps (s.setSeq .fetch) = some (.ok u) ∧ t = u.setSeq .fetch := by
  unfold execute
  rcases runLoop Config.maxSteps (s.setSeq .fetch) with _ | f | u
  · simp
  · simp [returnOutcome]
  · simp [returnOutcome, eq_comm]

/-- EXECUTE ends Faulted exactly when its loop does. -/
theorem execute_error_iff {s : State} {f : Fault} : execute s = some (.error f) ↔
    runLoop Config.maxSteps (s.setSeq .fetch) = some (.error f) := by
  unfold execute
  rcases runLoop Config.maxSteps (s.setSeq .fetch) with _ | g | u <;> simp [returnOutcome]

end Sys2Proof.Machine
end

