-- ==== Sys2Proof/Laws/PerInstr.lean ====
section
/-! SUPPORT. A statement for every instruction, proved constructor by constructor: its bytes are as many as
its length says, and its opcode byte alone determines that length (R50, R57). -/

namespace Sys2Proof.Laws.EncodedLength

def Statement (i : Instr) : Prop :=
  (encode i).length = i.length ∧ (encode i).head?.map opcodeLength = some i.length

theorem ldaImm (imm8 : Byte) : Statement (.ldaImm imm8) := ⟨rfl, rfl⟩
theorem tax : Statement .tax := ⟨rfl, rfl⟩
theorem inx : Statement .inx := ⟨rfl, rfl⟩
theorem hlt : Statement .hlt := ⟨rfl, rfl⟩

end Sys2Proof.Laws.EncodedLength
end

