-- ==== Sys2Proof/Laws/Step.lean ====
section
/-! SUPPORT. What fetching an instruction and one step can do, said once. -/

namespace Sys2Proof.Machine

/-- All that Fetch, Decode and the operand fetch can do (R70): one of the three faults, or one of the four
instructions with pc past it. -/
theorem fetchInstr_cases (s : State) :
    (Config.memTop < s.pc.toNat ∧ fetchInstr s = .error (.boundsViolation s.pc s)) ∨
    (s.pc.toNat ≤ Config.memTop ∧ decodeOpcode (s.byteAt s.pc) = none ∧
      fetchInstr s = .error (.unimplementedOpcode (s.byteAt s.pc) (s.pc + 1) (s.setPc (s.pc + 1)))) ∨
    (s.pc.toNat = Config.memTop ∧ s.byteAt s.pc = 0xA9#8 ∧
      fetchInstr s = .error (.boundsViolation (s.pc + 1) (s.setPc (s.pc + 1)))) ∨
    (s.pc.toNat + 1 ≤ Config.memTop ∧ s.byteAt s.pc = 0xA9#8 ∧
      fetchInstr s = .ok (.ldaImm (s.byteAt (s.pc + 1)), s.setPc (s.pc + 1 + 1))) ∨
    (s.pc.toNat ≤ Config.memTop ∧ s.byteAt s.pc = 0xAA#8 ∧
      fetchInstr s = .ok (.tax, s.setPc (s.pc + 1))) ∨
    (s.pc.toNat ≤ Config.memTop ∧ s.byteAt s.pc = 0xE8#8 ∧
      fetchInstr s = .ok (.inx, s.setPc (s.pc + 1))) ∨
    (s.pc.toNat ≤ Config.memTop ∧ s.byteAt s.pc = 0x00#8 ∧
      fetchInstr s = .ok (.hlt, s.setPc (s.pc + 1))) := by
  by_cases h : Config.memTop < s.pc.toNat
  · exact .inl ⟨h, by rw [fetchInstr, fetchByte_top h]⟩
  have hle : s.pc.toNat ≤ Config.memTop := by omega
  have e := toNat_succ_of_populated hle
  rcases decodeOpcode_cases (s.byteAt s.pc) with c | c | c | c | c
  · by_cases h2 : s.pc.toNat + 1 ≤ Config.memTop
    · refine .inr (.inr (.inr (.inl ⟨h2, c.1, ?_⟩)))
      simp only [fetchInstr, fetchByte_populated hle, c.2, fetchImmediate]
      rw [fetchByte_populated (by rw [State.setPc_pc, e]; exact h2)]
      simp [State.byteAt]
    · refine .inr (.inr (.inl ⟨by omega, c.1, ?_⟩))
      simp only [fetchInstr, fetchByte_populated hle, c.2, fetchImmediate]
      rw [fetchByte_top (by rw [State.setPc_pc, e]; omega)]
      simp
  · exact .inr (.inr (.inr (.inr (.inl ⟨hle, c.1, by simp [fetchInstr, fetchByte_populated hle, c.2]⟩))))
  · exact .inr (.inr (.inr (.inr (.inr (.inl ⟨hle, c.1, by simp [fetchInstr, fetchByte_populated hle, c.2]⟩)))))
  · exact .inr (.inr (.inr (.inr (.inr (.inr ⟨hle, c.1, by simp [fetchInstr, fetchByte_populated hle, c.2]⟩)))))
  · exact .inr (.inl ⟨hle, c.2, by simp [fetchInstr, fetchByte_populated hle, c.2, raiseFault]⟩)

theorem step_of_halted {s : State} (h : s.seq = .halted) : step s = .next s := by
  simp [step, h, haltedStep]

theorem step_of_fetched {s t : State} {i : Instr} (hs : s.seq = .fetch) (h : fetchInstr s = .ok (i, t)) :
    step s = exec i t := by
  simp [step, hs, h]

theorem step_of_fault {s : State} {f : Fault} (hs : s.seq = .fetch) (h : fetchInstr s = .error f) :
    step s = .fault f := by
  simp [step, hs, h]

/-! ### The bytes at pc and the step they make -/

theorem bytesAtPc_two {s : State} (h : s.pc.toNat + 1 ≤ Config.memTop) :
    s.bytesAtPc = [s.byteAt s.pc, s.byteAt (s.pc + 1)] := by
  have e := toNat_succ_of_populated (a := s.pc) (by omega)
  rw [State.bytesAtPc, if_neg (by omega), if_neg (by omega), State.byteAt, State.byteAt, e]

theorem bytesAtPc_one {s : State} (h : s.pc.toNat = Config.memTop) : s.bytesAtPc = [s.byteAt s.pc] := by
  rw [State.bytesAtPc, if_neg (by omega), if_pos (by omega), State.byteAt]

theorem bytesAtPc_none {s : State} (h : Config.memTop < s.pc.toNat) : s.bytesAtPc = [] := by
  rw [State.bytesAtPc, if_pos h]

theorem bytesAtPc_head {s : State} (h : s.pc.toNat ≤ Config.memTop) :
    ∃ rest, s.bytesAtPc = s.byteAt s.pc :: rest := by
  by_cases h2 : s.pc.toNat + 1 ≤ Config.memTop
  · exact ⟨_, bytesAtPc_two h2⟩
  · exact ⟨_, bytesAtPc_one (by omega)⟩

/-- pc moved past an instruction that lies in populated memory does not wrap (R18). -/
theorem toNat_pc_add_length {s : State} {i : Instr} (h : s.pc.toNat + i.length ≤ Config.memTop + 1) :
    (s.pc + BitVec.ofNat 16 i.length).toNat = s.pc.toNat + i.length := by
  unfold Config.memTop at h
  cases i <;> simp [Instr.length] at * <;> omega

/-- All that fetching can do, by the bytes at pc: the fetch at 0xFFFF, an unimplemented opcode, an LDA #
whose operand is missing, or a whole instruction that pc then stands behind. -/
theorem fetchInstr_bytes (s : State) :
    (Config.memTop < s.pc.toNat ∧ s.bytesAtPc = [] ∧
      fetchInstr s = .error (.boundsViolation s.pc s)) ∨
    (s.pc.toNat ≤ Config.memTop ∧ decodeOpcode (s.byteAt s.pc) = none ∧
      (∃ rest, s.bytesAtPc = s.byteAt s.pc :: rest) ∧
      fetchInstr s = .error (.unimplementedOpcode (s.byteAt s.pc) (s.pc + 1) (s.setPc (s.pc + 1)))) ∨
    (s.pc.toNat = Config.memTop ∧ s.byteAt s.pc = 0xA9#8 ∧ s.bytesAtPc = [0xA9#8] ∧
      fetchInstr s = .error (.boundsViolation (s.pc + 1) (s.setPc (s.pc + 1)))) ∨
    (∃ (i : Instr) (rest : List Byte), s.pc.toNat + i.length ≤ Config.memTop + 1 ∧
      s.bytesAtPc = encode i ++ rest ∧ (encode i).head? = some (s.byteAt s.pc) ∧
      fetchInstr s = .ok (i, s.setPc (s.pc + BitVec.ofNat 16 i.length))) := by
  rcases fetchInstr_cases s with ⟨h, hf⟩ | ⟨h, hd, hf⟩ | ⟨h, hd, hf⟩ | ⟨h, hd, hf⟩ | ⟨h, hd, hf⟩ |
    ⟨h, hd, hf⟩ | ⟨h, hd, hf⟩
  · exact .inl ⟨h, bytesAtPc_none h, hf⟩
  · exact .inr (.inl ⟨h, hd, bytesAtPc_head h, hf⟩)
  · exact .inr (.inr (.inl ⟨h, hd, by rw [bytesAtPc_one h, hd], hf⟩))
  · refine .inr (.inr (.inr ⟨.ldaImm (s.byteAt (s.pc + 1)), [], ?_, ?_, ?_, ?_⟩))
    · simp only [Instr.length]; omega
    · rw [bytesAtPc_two h, hd]; rfl
    · simp [encode, hd]
    · rw [hf, BitVec.add_assoc]; rfl
  · obtain ⟨rest, hr⟩ := bytesAtPc_head h
    refine .inr (.inr (.inr ⟨.tax, rest, ?_, ?_, ?_, hf⟩))
    · simp only [Instr.length]; omega
    · rw [hr, hd]; rfl
    · simp [encode, hd]
  · obtain ⟨rest, hr⟩ := bytesAtPc_head h
    refine .inr (.inr (.inr ⟨.inx, rest, ?_, ?_, ?_, hf⟩))
    · simp only [Instr.length]; omega
    · rw [hr, hd]; rfl
    · simp [encode, hd]
  · obtain ⟨rest, hr⟩ := bytesAtPc_head h
    refine .inr (.inr (.inr ⟨.hlt, rest, ?_, ?_, ?_, hf⟩))
    · simp only [Instr.length]; omega
    · rw [hr, hd]; rfl
    · simp [encode, hd]

/-! ### The meanings, one equation each -/

theorem exec_ldaImm (imm8 : Byte) (s : State) :
    exec (.ldaImm imm8) s = .next ((s.setA imm8).updateZN imm8) := rfl
theorem exec_tax (s : State) : exec .tax s = .next ((s.setX s.a).updateZN s.a) := rfl
theorem exec_inx (s : State) :
    exec .inx s = .next ((s.setX (incrementByte s.x)).updateZN (incrementByte s.x)) := rfl
theorem exec_hlt (s : State) : exec .hlt s = .next (s.setSeq .halted) := rfl

theorem toNat_incrementByte (v : Byte) : (incrementByte v).toNat = (v.toNat + 1) % 256 := by
  simp [incrementByte]

/-- Every meaning answers a next state, and none touches Y, pc or memory. -/
theorem exec_next (i : Instr) (s : State) :
    ∃ t, exec i s = .next t ∧ t.y = s.y ∧ t.pc = s.pc ∧ t.mem = s.mem := by
  cases i <;> exact ⟨_, rfl, rfl, rfl, rfl⟩

end Sys2Proof.Machine
end

