-- ==== Sys2Proof/Laws/Run.lean ====
section
/-! SUPPORT. The host's iteration of step, one step at a time. -/

namespace Sys2Proof.Machine

theorem core_run_next (M : Host.Core) (n : Nat) (s t : M.State) (h : M.step s = .next t) :
    M.run (n + 1) s = M.run n t := by
  simp [Host.Core.run, h]

theorem core_run_fault (M : Host.Core) (n : Nat) (s : M.State) (f : M.Fault) (h : M.step s = .fault f) :
    M.run (n + 1) s = .fault f := by
  simp [Host.Core.run, h]

theorem run_next {n : Nat} {s t : State} (h : step s = .next t) :
    Host.Core.run Sys2Proof.core (n + 1) s = Host.Core.run Sys2Proof.core n t :=
  core_run_next Sys2Proof.core n s t h

theorem run_fault {n : Nat} {s : State} {f : Fault} (h : step s = .fault f) :
    Host.Core.run Sys2Proof.core (n + 1) s = .fault f :=
  core_run_fault Sys2Proof.core n s f h

end Sys2Proof.Machine
end

