-- ==== Sys2Proof/Tests/Slice0.lean ====
section
/-! SUPPORT. Tests with expected results from `95_test_vectors.md` and the encoding tables, and a witness
for the hypotheses of each statement. -/

namespace Sys2Proof.Tests

open Sys2Proof Sys2Proof.Machine

/-- A running machine, written `A X Y P pc` as the spec's vectors write it. -/
def machine (a x y p : Byte) (pc : Address) (mem : Memory) : State :=
  { a := a, x := x, y := y, p := p, pc := pc, mem := mem, seq := .fetch }

/-- The same machine after HLT. -/
def haltedMachine (a x y p : Byte) (pc : Address) (mem : Memory) : State :=
  { a := a, x := x, y := y, p := p, pc := pc, mem := mem, seq := .halted }

/-- The next state of a step, if it has one. -/
def nextOf : Host.Outcome State Fault Refusal → Option State
  | .next t => some t
  | .fault _ => none
  | .refused _ => none

/-- The fault of a step, if it has one. -/
def faultOf : Host.Outcome State Fault Refusal → Option Fault
  | .fault f => some f
  | .next _ => none
  | .refused _ => none

/-- The value of a success. -/
def okOf {ε α : Type} : Except ε α → Option α
  | .ok v => some v
  | .error _ => none

/-- The reason of a failure. -/
def errorOf {ε α : Type} : Except ε α → Option ε
  | .error e => some e
  | .ok _ => none

/-! ### Well-formedness: the one check that refuses (R124, V53); every operand byte is legal (R56) -/

theorem test_programFits_refuses_32768 : programFits (List.replicate 32768 0xE8) = false := by
  rw [Bool.eq_false_iff, ne_eq, programFits_iff, List.length_replicate]; decide

theorem test_programFits_accepts_32767 : programFits (List.replicate 32767 0xE8) = true := by
  rw [programFits_iff, List.length_replicate]

theorem test_operand_zero_wellFormed : (Instr.ldaImm 0x00).wellFormed = true := by decide
theorem test_operand_ff_wellFormed : (Instr.ldaImm 0xFF).wellFormed = true := by decide

/-! ### Decoding, words from R51's bit strings and R53's table -/

theorem test_decode_lda : okOf (decode [0b10101001, 0b10000001, 0x77]) = some (.ldaImm 0x81, [0x77]) := by decide
theorem test_decode_tax : okOf (decode [0b10101010, 0x77]) = some (.tax, [0x77]) := by decide
theorem test_decode_inx : okOf (decode [0b11101000]) = some (.inx, []) := by decide
theorem test_decode_hlt : okOf (decode [0b00000000]) = some (.hlt, []) := by decide
theorem test_decode_unimplemented : -- V33, V34, V35
    [0xEA, 0xA2, 0x01, 0xA8, 0xAB, 0xE7, 0xE9, 0xFF].map decodeOpcode = List.replicate 8 none := by decide
theorem test_four_opcodes : -- NUM_OPCODES (R3, R53)
    ((List.range 256).filter fun b => (decodeOpcode (BitVec.ofNat 8 b)).isSome).length = Config.numOpcodes := by
  decide
theorem test_table_word_lda : decodeTableWord 16 0x05A9 = some (.ldaImm 0x05) := by decide
theorem test_table_word_short : decodeTableWord 8 0x05A9 = some (.ldaImm 0x00) := by decide
theorem test_disassemble : -- P1
    okOf (disassemble [0xA9, 0xC0, 0xAA, 0xE8, 0xE8, 0xA9, 0x00, 0x00]) =
      some [.ldaImm 0xC0, .tax, .inx, .inx, .ldaImm 0x00, .hlt] := by decide
theorem test_assemble : -- P3, with its .byte line
    assemble [.instr (.ldaImm 0x10), .instr .tax, .instr .inx, .byte 0x02, .instr .inx, .instr .hlt] =
      [0xA9, 0x10, 0xAA, 0xE8, 0x02, 0xE8, 0x00] := by decide

/-! ### Parameters (R3) -/

theorem test_parameters : Config.memTop = Config.memBytes - 1 ∧
    Config.maxProgram = Config.memBytes - Config.origin.toNat := by decide

/-! ### SetZN (V6, V8) -/

theorem test_setZN_zero_keeps_reserved : setZN 0xFF 0x00 = 0x7F := by decide
theorem test_setZN_negative_keeps_reserved : setZN 0xFF 0x80 = 0xFD := by decide

/-! ### Single steps -/

theorem test_lda_V14 : nextOf (step (machine 0x00 0x00 0x00 0xFF 0x8000 [(0x8000, 0xA9), (0x8001, 0x7F)])) =
    some (machine 0x7F 0x00 0x00 0x7D 0x8002 [(0x8000, 0xA9), (0x8001, 0x7F)]) := by decide
theorem test_lda_V16 : nextOf (step (machine 0x00 0x00 0x00 0x00 0xFFFD [(0xFFFD, 0xA9), (0xFFFE, 0x80)])) =
    some (machine 0x80 0x00 0x00 0x80 0xFFFF [(0xFFFD, 0xA9), (0xFFFE, 0x80)]) := by decide
theorem test_lda_V17 : faultOf (step (machine 0x33 0x00 0x00 0x41 0xFFFE [(0xFFFE, 0xA9)])) =
    some (.boundsViolation 0xFFFF (machine 0x33 0x00 0x00 0x41 0xFFFF [(0xFFFE, 0xA9)])) := by decide
theorem test_tax_V19 : nextOf (step (machine 0x00 0x77 0x00 0x80 0x8000 [(0x8000, 0xAA)])) =
    some (machine 0x00 0x00 0x00 0x02 0x8001 [(0x8000, 0xAA)]) := by decide
theorem test_tax_V21 : nextOf (step (machine 0xFF 0xFF 0x99 0x7D 0x8000 [(0x8000, 0xAA)])) =
    some (machine 0xFF 0xFF 0x99 0xFD 0x8001 [(0x8000, 0xAA)]) := by decide
theorem test_inx_V23 : nextOf (step (machine 0x00 0x7F 0x00 0x00 0x8000 [(0x8000, 0xE8)])) =
    some (machine 0x00 0x80 0x00 0x80 0x8001 [(0x8000, 0xE8)]) := by decide
theorem test_inx_V26 : nextOf (step (machine 0x00 0xFF 0x00 0xFD 0x8000 [(0x8000, 0xE8)])) =
    some (machine 0x00 0x00 0x00 0x7F 0x8001 [(0x8000, 0xE8)]) := by decide
theorem test_hlt_V29 : nextOf (step (machine 0x00 0x00 0x00 0x00 0xFFFE [])) =
    some (haltedMachine 0x00 0x00 0x00 0x00 0xFFFF []) := by decide
theorem test_hlt_V30 : nextOf (step (machine 0x00 0x80 0x00 0xFF 0x8000 [])) =
    some (haltedMachine 0x00 0x80 0x00 0xFF 0x8001 []) := by decide
theorem test_unimplemented_V36 : faultOf (step (machine 0x00 0x00 0x00 0x00 0xFFFE [(0xFFFE, 0x42)])) =
    some (.unimplementedOpcode 0x42 0xFFFF (machine 0x00 0x00 0x00 0x00 0xFFFF [(0xFFFE, 0x42)])) := by decide
theorem test_top_V57 : faultOf (step (machine 0x01 0x02 0x03 0x04 0xFFFF [])) =
    some (.boundsViolation 0xFFFF (machine 0x01 0x02 0x03 0x04 0xFFFF [])) := by decide

/-! ### The placed word is the first instruction after reset -/

theorem test_fetch_word_lda : nextOf (step (State.reset.withFetchWord 16 0xFFA9)) =
    some (machine 0xFF 0x00 0x00 0x80 0x0002 [(0x0000, 0xA9), (0x0001, 0xFF)]) := by decide
theorem test_fetch_word_hlt : nextOf (step (State.reset.withFetchWord 8 0x00)) =
    some (haltedMachine 0x00 0x00 0x00 0x00 0x0001 []) := by decide

/-! ### Memory primitives and host operations -/

theorem test_write_word_V37 : okOf (memWrite16 powerOn 0x1234 0xBEEF) =
    some { powerOn with mem := [(0x1234, 0xEF), (0x1235, 0xBE)] } := by decide
theorem test_write_word_top_V42 : errorOf (memWrite16 powerOn 0xFFFE 0xABCD) =
    some (.boundsViolation 0xFFFF { powerOn with mem := [(0xFFFE, 0xCD)] }) := by decide
theorem test_read_word_top_V40 : errorOf (memRead16 powerOn 0xFFFE) =
    some (.boundsViolation 0xFFFF powerOn) := by decide
theorem test_load_V46 : okOf (hostLoad powerOn [0xA9, 0x05, 0x00]) =
    some { powerOn with mem := [(0x8000, 0xA9), (0x8001, 0x05), (0xFFFD, 0x80)] } := by decide
theorem test_reset_V49 : okOf (hostReset (machine 0x12 0x34 0x56 0xFF 0x1111 [(0xFFFD, 0x80)])) =
    some (machine 0x00 0x00 0x56 0x00 0x8000 [(0xFFFD, 0x80)]) := by decide
theorem test_reset_V48 : okOf (hostReset powerOn) = some State.reset := by decide
theorem test_execute_V31 : perform .execute powerOn =
    (.halted, machine 0x00 0x00 0x00 0x00 0x0001 []) := by decide
theorem test_write_after_halt_R22 : perform (.writeReg .p 0xFF) (haltedMachine 0x00 0x00 0x00 0x00 0x0001 []) =
    (.done, machine 0x00 0x00 0x00 0xFF 0x0001 []) := by decide

/-! ### Witnesses: for each statement with hypotheses, concrete values that meet all of them together, at
the ends of their ranges; for each clause of a statement with several, one -/

/-- A machine with one unimplemented byte at the top of memory. -/
def topUnimplemented : State := machine 0x00 0x00 0x00 0x00 0xFFFE [(0xFFFE, 0x42)]

/-- A machine whose LDA # at the top of memory lacks its operand. -/
def topLda : State := machine 0x00 0x00 0x00 0x00 0xFFFE [(0xFFFE, 0xA9)]

/-- A machine with pc at the address that has no byte. -/
def topEmpty : State := machine 0x00 0x00 0x00 0x00 0xFFFF []

/-- A machine at the last populated byte, where unwritten memory halts it. -/
def topHalt : State := machine 0x05 0x00 0x5A 0x7D 0xFFFE []

theorem witness_DecodeExactlyInvertsEncode : (Instr.ldaImm 0xFF).wellFormed = true ∧
    okOf (decode [0xA9, 0xFF, 0x00]) = some (.ldaImm 0xFF, [0x00]) := by decide

theorem witness_OpcodeByteDeterminesLength :
    okOf (decode (0xA9 :: [0x00])) = some (.ldaImm 0x00, []) ∧
    okOf (decode (0x00 :: [0xA9])) = some (.hlt, [0xA9]) := by decide

theorem witness_DisassembleExactlyInvertsAssembly :
    ∀ i ∈ [Instr.ldaImm 0x00, .tax, .inx, .hlt], i.wellFormed = true := by decide

theorem witness_StepRunsDecodedInstruction :
    let s := machine 0x00 0x00 0x00 0x00 0xFFFD [(0xFFFD, 0xA9), (0xFFFE, 0x80)]
    s.seq = .fetch ∧ okOf (decode s.bytesAtPc) = some (.ldaImm 0x80, []) ∧
      (Instr.ldaImm 0x80).wellFormed = true := by decide

theorem witness_StepRunsDecodedInstruction_one_byte :
    topHalt.seq = .fetch ∧ okOf (decode topHalt.bytesAtPc) = some (.hlt, []) ∧
      Instr.hlt.wellFormed = true := by decide

theorem witness_PlacedWordIsTheNextInstruction :
    let s := machine 0x00 0x00 0x00 0x00 0xFFFD [(0x8000, 0x01)]
    Memory.wf s.mem = true ∧ s.pc.toNat ≤ 0xFFFD ∧ decodeTableWord 16 0xFFA9 = some (.ldaImm 0xFF) ∧
      (0x8000 : Address) ≠ s.pc ∧ (0x8000 : Address) ≠ s.pc + 1 := by decide

theorem witness_LdaImmStep :
    let s := machine 0x00 0x00 0x00 0x00 0xFFFD [(0xFFFD, 0xA9), (0xFFFE, 0x80)]
    s.seq = .fetch ∧ s.pc.toNat ≤ 0xFFFD ∧ s.byteAt s.pc = 0xA9 := by decide

theorem witness_TaxStep :
    let s := machine 0x00 0x00 0x00 0x00 0xFFFE [(0xFFFE, 0xAA)]
    s.seq = .fetch ∧ s.pc.toNat ≤ 0xFFFE ∧ s.byteAt s.pc = 0xAA := by decide

theorem witness_InxStep :
    let s := machine 0x00 0xFF 0x00 0x00 0xFFFE [(0xFFFE, 0xE8)]
    s.seq = .fetch ∧ s.pc.toNat ≤ 0xFFFE ∧ s.byteAt s.pc = 0xE8 := by decide

theorem witness_HltStepEndsTheRun :
    topHalt.seq = .fetch ∧ topHalt.pc.toNat ≤ 0xFFFE ∧ topHalt.byteAt topHalt.pc = 0x00 := by decide

theorem witness_StepFaultsExactlyWhen_fetch :
    faultOf (step topEmpty) = some (.boundsViolation 0xFFFF topEmpty) ∧ topEmpty.pc = 0xFFFF := by decide

theorem witness_StepFaultsExactlyWhen_unimplemented :
    faultOf (step topUnimplemented) =
      some (.unimplementedOpcode 0x42 0xFFFF (topUnimplemented.setPc 0xFFFF)) ∧
    topUnimplemented.pc ≠ 0xFFFF ∧ topUnimplemented.byteAt topUnimplemented.pc = 0x42 := by decide

theorem witness_StepFaultsExactlyWhen_operand :
    faultOf (step topLda) = some (.boundsViolation 0xFFFF (topLda.setPc 0xFFFF)) ∧
    topLda.pc = 0xFFFE ∧ topLda.byteAt topLda.pc = 0xA9 := by decide

theorem witness_PcAdvancesByTheLength : topHalt.seq = .fetch ∧
    nextOf (step topHalt) = some ((topHalt.setPc 0xFFFF).setSeq .halted) := by decide

theorem witness_StepFrame_running :
    (nextOf (step (machine 0x07 0x00 0x5A 0x7D 0x0000 [(0x0000, 0xE8)]))).isSome = true ∧
    (nextOf (step (machine 0x07 0x00 0x5A 0x7D 0x0000 [(0x0000, 0xAA)]))).isSome = true ∧
    (nextOf (step (machine 0x07 0x00 0x5A 0x7D 0x0000 [(0x0000, 0xA9)]))).isSome = true ∧
    (nextOf (step topHalt)).isSome = true := by decide

theorem witness_StepFrame_halted :
    let s := haltedMachine 0x07 0x00 0x5A 0x7D 0x0001 []
    s.seq = .halted ∧ nextOf (step s) = some s := by decide

theorem witness_StepKeepsInv : Inv topHalt ∧
    step topHalt = .next ((topHalt.setPc 0xFFFF).setSeq .halted) :=
  ⟨⟨by decide, fun h => nomatch h⟩, rfl⟩

theorem witness_StepKeepsInv_halted :
    Inv (haltedMachine 0x00 0x00 0x00 0x00 0xFFFF []) ∧
    step (haltedMachine 0x00 0x00 0x00 0x00 0xFFFF []) =
      .next (haltedMachine 0x00 0x00 0x00 0x00 0xFFFF []) :=
  ⟨⟨by decide, fun _ => by decide⟩, rfl⟩

theorem witness_EveryRunEndsWithinTheBound :
    Host.Core.run Sys2Proof.core 0 topHalt = .next topHalt ∧ topHalt.seq = .fetch := ⟨rfl, rfl⟩

theorem witness_run_halts : RunHalts topHalt (topHalt.setPc 0xFFFF) := rfl

theorem witness_run_faults_unimplemented :
    RunFaults topUnimplemented (.unimplementedOpcode 0x42 0xFFFF (topUnimplemented.setPc 0xFFFF)) := rfl

theorem witness_run_faults_bounds : RunFaults topEmpty (.boundsViolation 0xFFFF topEmpty) := rfl

theorem witness_RunLeavesUntouchedState :
    RunHalts topHalt (topHalt.setPc 0xFFFF) ∧
    RunFaults topLda (.boundsViolation 0xFFFF (topLda.setPc 0xFFFF)) := ⟨rfl, rfl⟩

theorem witness_RunOutcomes :
    RunHalts powerOn (machine 0x00 0x00 0x00 0x00 0x0001 []) ∧
    RunFaults topUnimplemented (.unimplementedOpcode 0x42 0xFFFF (topUnimplemented.setPc 0xFFFF)) ∧
    RunFaults topLda (.boundsViolation 0xFFFF (topLda.setPc 0xFFFF)) := ⟨rfl, rfl, rfl⟩

theorem witness_NothingOfARunIsRetained :
    RunHalts topHalt (topHalt.setPc 0xFFFF) ∧
    RunFaults topUnimplemented (.unimplementedOpcode 0x42 0xFFFF (topUnimplemented.setPc 0xFFFF)) := ⟨rfl, rfl⟩

theorem witness_UnreadStateDoesNotInfluenceARun_halts :
    SameReadState topHalt ((topHalt.setY 0xFF).setP 0x00) ∧
    RunHalts topHalt (topHalt.setPc 0xFFFF) ∧
    SameFlags topHalt ((topHalt.setY 0xFF).setP 0x00) :=
  ⟨⟨rfl, rfl, rfl, rfl, rfl⟩, rfl, rfl, rfl⟩

theorem witness_UnreadStateDoesNotInfluenceARun_faults :
    SameReadState topLda (topLda.setP 0x41) ∧
    RunFaults topLda (.boundsViolation 0xFFFF (topLda.setPc 0xFFFF)) ∧
    SameFlags topLda (topLda.setP 0x41) :=
  ⟨⟨rfl, rfl, rfl, rfl, rfl⟩, rfl, rfl, rfl⟩

theorem witness_PowerOnZeroesEverything :
    (0xFFFE : Address) ≠ 0xFFFF ∧ okOf (memRead powerOn 0xFFFE) = some 0x00 := by decide

theorem witness_ByteAccessRule : Memory.wf [(0x0000, (0x01 : Byte)), (0xFFFE, 0xFF)] = true ∧
    (0xFFFE : Address) ≠ 0xFFFF ∧ (0x0000 : Address) ≠ 0xFFFE := by decide

theorem witness_ByteAccessRule_top :
    Memory.wf powerOn.mem = true ∧ errorOf (memRead powerOn 0xFFFF) = some (.boundsViolation 0xFFFF powerOn) := by
  decide

theorem witness_WordAccessIsLittleEndian : Memory.wf [(0xFFFD, (0x34 : Byte)), (0xFFFE, 0x12)] = true ∧
    (0xFFFD : Address).toNat ≤ 0xFFFD ∧ (0x0000 : Address) ≠ 0xFFFD ∧ (0x0000 : Address) ≠ 0xFFFD + 1 := by
  decide

theorem witness_WordAccessAtTheTop :
    Memory.wf [(0xFFFE, (0x12 : Byte))] = true ∧ (0xFFFD : Address) ≠ 0xFFFE := by decide

theorem witness_FetchSeesHostWrite : Memory.wf topHalt.mem = true ∧ topHalt.pc.toNat ≤ 0xFFFE := by decide

theorem witness_CanonicalMemoryIsExtensional :
    Memory.wf [(0x0000, (0x01 : Byte))] = true ∧
    ∀ a, Memory.byteAt [(0x0000, (0x01 : Byte))] a =
      Memory.byteAt (Memory.setByte (Memory.setByte [] 0x0000 0x02) 0x0000 0x01) a := ⟨by decide, fun _ => rfl⟩

theorem witness_LoadInstallsProgramAndVector_longest :
    Memory.wf powerOn.mem = true ∧ (List.replicate 32767 (0xE8 : Byte)).length ≤ 32767 ∧
    32766 < (List.replicate 32767 (0xE8 : Byte)).length ∧
    0x8000 + 32766 ≠ 0xFFFC ∧ 0x8000 + 32766 ≠ 0xFFFD := by
  rw [List.length_replicate]; decide

theorem witness_LoadInstallsProgramAndVector_empty :
    Memory.wf powerOn.mem = true ∧ ([] : List Byte).length ≤ 32767 ∧
    0x8000 + ([] : List Byte).length ≤ 0x8000 ∧ 0x8000 ≠ 0xFFFC ∧ 0x8000 ≠ 0xFFFD := by decide

theorem witness_LoadThenResetStartsAtOrigin :
    Memory.wf topLda.mem = true ∧ (List.replicate 32767 (0xE8 : Byte)).length ≤ 32767 := by
  rw [List.length_replicate]; decide

theorem witness_LoadAndRunComposesTheThree : ([] : List Byte).length ≤ 32767 := by decide

theorem witness_OversizedLoadIsRefused : 32767 < (List.replicate 32768 (0xE8 : Byte)).length := by
  rw [List.length_replicate]; decide

theorem witness_HostRegisterAccess : Reg.a ≠ Reg.p := by decide

theorem witness_HostOperationsKeepMemoryCanonical :
    Memory.wf powerOn.mem = true ∧
    (perform (.writeWord 0xFFFE 0xABCD) powerOn).2.mem = [(0xFFFE, 0xCD)] := by decide

end Sys2Proof.Tests
end

/-! SUPPORT. The registers, the flags and the sequencer: two runs that differ in Y and P alone, what a step
leaves unchanged, SetZN bit by bit, and the host's access to the registers (`10_state.md`). -/

namespace Sys2Proof.Machine

/-! ### Two states that agree in all an instruction reads -/

/-- The relation that two runs side by side keep: the states agree in all an instruction reads, and in the
flags if `flags` holds. A run takes for `flags` that its two start states have the same flags. -/
def Agree (flags : Prop) (s s' : State) : Prop :=
  SameReadState s s' ∧ (flags → SameFlags s s')

/-- Two faults with the same data that leave agreeing states. -/
def AgreeFault (flags : Prop) (f f' : Fault) : Prop :=
  SameFaultData f f' ∧ Agree flags f.stateLeft f'.stateLeft

section
variable {flags : Prop} {s s' : State}

theorem byteAt_eq_of_sameReadState (h : SameReadState s s') (addr : Address) :
    s.byteAt addr = s'.byteAt addr := by
  obtain ⟨-, -, -, hmem, -⟩ := h
  rw [State.byteAt, State.byteAt, hmem]

theorem sameReadState_setA (h : SameReadState s s') (v : Byte) : SameReadState (s.setA v) (s'.setA v) := by
  obtain ⟨-, hx, hpc, hmem, hseq⟩ := h
  exact ⟨rfl, hx, hpc, hmem, hseq⟩

theorem sameReadState_setX (h : SameReadState s s') (v : Byte) : SameReadState (s.setX v) (s'.setX v) := by
  obtain ⟨ha, -, hpc, hmem, hseq⟩ := h
  exact ⟨ha, rfl, hpc, hmem, hseq⟩

theorem Agree.setPc (h : Agree flags s s') (v : Address) : Agree flags (s.setPc v) (s'.setPc v) := by
  obtain ⟨⟨ha, hx, -, hmem, hseq⟩, hflags⟩ := h
  exact ⟨⟨ha, hx, rfl, hmem, hseq⟩, hflags⟩

theorem Agree.setSeq (h : Agree flags s s') (q : Sequencer) : Agree flags (s.setSeq q) (s'.setSeq q) := by
  obtain ⟨⟨ha, hx, hpc, hmem, -⟩, hflags⟩ := h
  exact ⟨⟨ha, hx, hpc, hmem, rfl⟩, hflags⟩

/-- SetZN computes both flags from its argument alone (R16). -/
theorem sameFlags_updateZN (s s' : State) (v : Byte) : SameFlags (s.updateZN v) (s'.updateZN v) := by
  constructor
  · simp only [State.zeroFlag, State.updateZN_p, setZN_zero]
  · simp only [State.negativeFlag, State.updateZN_p, setZN_negative]

/-- SetZN of one value makes the flags agree, whatever they were. -/
theorem agree_updateZN (h : SameReadState s s') (v : Byte) :
    Agree flags (s.updateZN v) (s'.updateZN v) :=
  ⟨h, fun _ => sameFlags_updateZN s s' v⟩

/-! ### Agreement is kept by a fetch, a meaning and a step -/

theorem fetchByte_agree (h : Agree flags s s') :
    (∃ f f', fetchByte s = .error f ∧ fetchByte s' = .error f' ∧ AgreeFault flags f f') ∨
    (∃ b t t', fetchByte s = .ok (b, t) ∧ fetchByte s' = .ok (b, t') ∧ Agree flags t t') := by
  obtain ⟨-, -, hpc, -, -⟩ := h.1
  by_cases htop : Config.memTop < s.pc.toNat
  · exact .inl ⟨_, _, fetchByte_top htop, fetchByte_top (hpc ▸ htop), hpc, h⟩
  · have hle : s.pc.toNat ≤ Config.memTop := Nat.le_of_not_lt htop
    refine .inr ⟨s.byteAt s.pc, _, _, fetchByte_populated hle, ?_, h.setPc (s.pc + 1)⟩
    rw [fetchByte_populated (hpc ▸ hle), ← hpc, byteAt_eq_of_sameReadState h.1]

theorem fetchInstr_agree (h : Agree flags s s') :
    (∃ f f', fetchInstr s = .error f ∧ fetchInstr s' = .error f' ∧ AgreeFault flags f f') ∨
    (∃ i t t', fetchInstr s = .ok (i, t) ∧ fetchInstr s' = .ok (i, t') ∧ Agree flags t t') := by
  unfold fetchInstr fetchImmediate
  rcases fetchByte_agree h with ⟨f, f', hf, hf', hagree⟩ | ⟨op, u, u', hu, hu', hagree⟩
  · rw [hf, hf']
    exact .inl ⟨f, f', rfl, rfl, hagree⟩
  · rw [hu, hu']
    dsimp only
    cases decodeOpcode op with
    | none =>
      obtain ⟨-, -, hpc, -, -⟩ := hagree.1
      exact .inl ⟨_, _, rfl, rfl, ⟨rfl, hpc⟩, hagree⟩
    | some opcode =>
      cases opcode with
      | ldaImm =>
        rcases fetchByte_agree hagree with ⟨f, f', hf, hf', hleft⟩ | ⟨imm8, t, t', ht, ht', hnext⟩
        · rw [hf, hf']
          exact .inl ⟨f, f', rfl, rfl, hleft⟩
        · rw [ht, ht']
          exact .inr ⟨.ldaImm imm8, t, t', rfl, rfl, hnext⟩
      | tax => exact .inr ⟨.tax, u, u', rfl, rfl, hagree⟩
      | inx => exact .inr ⟨.inx, u, u', rfl, rfl, hagree⟩
      | hlt => exact .inr ⟨.hlt, u, u', rfl, rfl, hagree⟩

theorem exec_agree (i : Instr) (h : Agree flags s s') :
    ∃ t t', exec i s = .next t ∧ exec i s' = .next t' ∧ Agree flags t t' := by
  obtain ⟨ha, hx, -, -, -⟩ := h.1
  cases i with
  | ldaImm imm8 => exact ⟨_, _, exec_ldaImm imm8 s, exec_ldaImm imm8 s',
      agree_updateZN (sameReadState_setA h.1 imm8) imm8⟩
  | tax => exact ⟨_, _, exec_tax s, by rw [exec_tax, ← ha],
      agree_updateZN (sameReadState_setX h.1 s.a) s.a⟩
  | inx => exact ⟨_, _, exec_inx s, by rw [exec_inx, ← hx],
      agree_updateZN (sameReadState_setX h.1 _) _⟩
  | hlt => exact ⟨_, _, exec_hlt s, exec_hlt s', h.setSeq .halted⟩

theorem step_agree (h : Agree flags s s') :
    (∃ f f', step s = .fault f ∧ step s' = .fault f' ∧ AgreeFault flags f f') ∨
    (∃ t t', step s = .next t ∧ step s' = .next t' ∧ Agree flags t t') := by
  obtain ⟨-, -, -, -, hseq⟩ := h.1
  cases hs : s.seq with
  | halted => exact .inr ⟨s, s', step_of_halted hs, step_of_halted (hseq ▸ hs), h⟩
  | fetch =>
    have hs' : s'.seq = .fetch := hseq ▸ hs
    rcases fetchInstr_agree h with ⟨f, f', hf, hf', hagree⟩ | ⟨i, u, u', hu, hu', hagree⟩
    · exact .inl ⟨f, f', step_of_fault hs hf, step_of_fault hs' hf', hagree⟩
    · obtain ⟨t, t', ht, ht', hnext⟩ := exec_agree i hagree
      exact .inr ⟨t, t', (step_of_fetched hs hu).trans ht, (step_of_fetched hs' hu').trans ht', hnext⟩

/-! ### Agreement is kept by a run -/

/-- EXECUTE's loop from two agreeing states ends alike, whatever the bound on its steps. -/
theorem runLoop_agree (n : Nat) (h : Agree flags s s') :
    (∀ t, runLoop n s = some (.ok t) → ∃ t', runLoop n s' = some (.ok t') ∧ Agree flags t t') ∧
    (∀ f, runLoop n s = some (.error f) →
      ∃ f', runLoop n s' = some (.error f') ∧ AgreeFault flags f f') := by
  induction n generalizing s s' with
  | zero => exact ⟨fun _ hr => (nomatch hr), fun _ hr => (nomatch hr)⟩
  | succ n ih =>
    rw [runLoop_succ, runLoop_succ]
    rcases step_agree h with ⟨f, f', hf, hf', hagree⟩ | ⟨u, u', hu, hu', hagree⟩
    · rw [hf, hf']
      refine ⟨fun _ hr => (nomatch hr), fun _ hr => ?_⟩
      cases hr
      exact ⟨f', rfl, hagree⟩
    · rw [hu, hu']
      obtain ⟨-, -, -, -, hseq⟩ := hagree.1
      simp only [← hseq]
      cases u.seq with
      | fetch => exact ih hagree
      | halted =>
        refine ⟨fun t hr => ?_, fun _ hr => (nomatch hr)⟩
        cases hr
        exact ⟨u', rfl, hagree⟩

theorem runHalts_agree {t : State} (h : Agree flags s s') (hrun : RunHalts s t) :
    ∃ t', RunHalts s' t' ∧ Agree flags t t' := by
  obtain ⟨u, hu, rfl⟩ := execute_ok_iff.mp hrun
  obtain ⟨u', hu', hagree⟩ := (runLoop_agree Config.maxSteps (h.setSeq .fetch)).1 u hu
  exact ⟨u'.setSeq .fetch, execute_ok_iff.mpr ⟨u', hu', rfl⟩, hagree.setSeq .fetch⟩

theorem runFaults_agree {f : Fault} (h : Agree flags s s') (hrun : RunFaults s f) :
    ∃ f', RunFaults s' f' ∧ AgreeFault flags f f' := by
  obtain ⟨f', hf', hagree⟩ :=
    (runLoop_agree Config.maxSteps (h.setSeq .fetch)).2 f (execute_error_iff.mp hrun)
  exact ⟨f', execute_error_iff.mpr hf', hagree⟩

end

/-- Settles O30: every step keeps agreement in what is read, and in the flags if they agreed at the start;
so does EXECUTE's loop, by induction on its bound. -/
theorem unreadStateDoesNotInfluenceARun : Obligations.UnreadStateDoesNotInfluenceARun := by
  intro s s' hread
  have h : Agree (SameFlags s s') s s' := ⟨hread, id⟩
  exact ⟨fun _ hrun => runHalts_agree h hrun, fun _ hrun => runFaults_agree h hrun⟩

/-! ### What a step leaves unchanged -/

theorem sameUntouched_refl (s : State) : SameUntouched s s :=
  ⟨rfl, rfl, fun _ => rfl⟩

theorem sameUntouched_setPc_iff {s t : State} {pc : Address} :
    SameUntouched (s.setPc pc) t ↔ SameUntouched s t :=
  Iff.rfl

/-- No meaning changes Y, a reserved bit of P or a byte of memory (R75). -/
theorem exec_untouched {i : Instr} {s t : State} (h : exec i s = .next t) : SameUntouched s t := by
  cases i <;> cases h
  case hlt => exact ⟨rfl, rfl, fun _ => rfl⟩
  all_goals exact ⟨rfl, setZN_reserved _ _, fun _ => rfl⟩

/-- All a step that answers a next state can be: the step of a halted state, or the meaning of the
instruction whose bytes stand at pc, with pc moved past them. -/
theorem step_next_cases {s t : State} (h : step s = .next t) :
    (s.seq = .halted ∧ t = s) ∨
    (s.seq = .fetch ∧ ∃ (i : Instr) (rest : List Byte), s.pc.toNat + i.length ≤ Config.memTop + 1 ∧
      s.bytesAtPc = encode i ++ rest ∧ (encode i).head? = some (s.byteAt s.pc) ∧
      exec i (s.setPc (s.pc + BitVec.ofNat 16 i.length)) = .next t) := by
  cases hs : s.seq with
  | halted =>
    rw [step_of_halted hs] at h
    cases h
    exact .inl ⟨rfl, rfl⟩
  | fetch =>
    rcases fetchInstr_bytes s with ⟨-, -, hf⟩ | ⟨-, -, -, hf⟩ | ⟨-, -, -, hf⟩ |
      ⟨i, rest, hle, hb, hop, hf⟩
    · cases (step_of_fault hs hf).symm.trans h
    · cases (step_of_fault hs hf).symm.trans h
    · cases (step_of_fault hs hf).symm.trans h
    · rw [step_of_fetched hs hf] at h
      exact .inr ⟨rfl, i, rest, hle, hb, hop, h⟩

/-- Settles O21: a halted state is answered whole; otherwise the opcode byte at pc is that of the executed
instruction, which writes its own register, P and nothing else. -/
theorem stepFrame : Obligations.StepFrame := by
  intro s t hstep
  rcases step_next_cases hstep with ⟨hs, rfl⟩ | ⟨hs, i, rest, -, -, hop, hexec⟩
  · exact ⟨sameUntouched_refl t, fun _ => rfl, fun _ => rfl, fun _ _ => rfl,
      fun _ => ⟨rfl, hs⟩, fun _ => rfl⟩
  · have hsame : SameUntouched s t := sameUntouched_setPc_iff.mp (exec_untouched hexec)
    have hrun : s.seq = .halted → t = s := fun hh => nomatch hs.symm.trans hh
    refine ⟨hsame, hrun, ?_⟩
    cases i with
    | ldaImm imm8 =>
      cases hexec
      have hbyte : s.byteAt s.pc = 0xA9#8 := (Option.some.inj hop).symm
      exact ⟨fun hne => absurd hbyte hne, fun _ _ => rfl,
        fun h0 => absurd (hbyte.symm.trans h0) (by decide), fun _ => rfl⟩
    | tax =>
      cases hexec
      have hbyte : s.byteAt s.pc = 0xAA#8 := (Option.some.inj hop).symm
      exact ⟨fun _ => rfl, fun hne _ => absurd hbyte hne,
        fun h0 => absurd (hbyte.symm.trans h0) (by decide), fun _ => rfl⟩
    | inx =>
      cases hexec
      have hbyte : s.byteAt s.pc = 0xE8#8 := (Option.some.inj hop).symm
      exact ⟨fun _ => rfl, fun _ hne => absurd hbyte hne,
        fun h0 => absurd (hbyte.symm.trans h0) (by decide), fun _ => rfl⟩
    | hlt =>
      cases hexec
      have hbyte : s.byteAt s.pc = 0x00#8 := (Option.some.inj hop).symm
      exact ⟨fun _ => rfl, fun _ _ => rfl, fun _ => ⟨rfl, rfl⟩, fun hne => absurd hbyte hne⟩

/-! ### SetZN, bit by bit -/

/-- SetZN keeps every bit of P but bits 1 and 7 (R16). -/
theorem setZN_getLsbD_of_reserved (p v : Byte) {k : Nat} (hk : k < 8) (hz : k ≠ 1) (hn : k ≠ 7) :
    (setZN p v).getLsbD k = p.getLsbD k := by
  have hmask : (0x7D : Byte).getLsbD k = true := by
    revert hz hn
    interval_cases k <;> decide
  calc (setZN p v).getLsbD k
      = (setZN p v &&& 0x7D).getLsbD k := by rw [BitVec.getLsbD_and, hmask, Bool.and_true]
    _ = (p &&& 0x7D).getLsbD k := by rw [setZN_reserved]
    _ = p.getLsbD k := by rw [BitVec.getLsbD_and, hmask, Bool.and_true]

/-- The flags are never both set: zero has no bit 7. -/
theorem setZN_not_zero_and_negative (p v : Byte) :
    ¬ ((setZN p v).getLsbD 1 = true ∧ (setZN p v).getLsbD 7 = true) := by
  rw [setZN_zero, setZN_negative, decide_eq_true_eq]
  rintro ⟨rfl, hbit⟩
  simp at hbit

/-- Settles O6: each bit of SetZN by its own lemma, and the meanings' own equations. -/
theorem flagUpdateRule : Obligations.FlagUpdateRule :=
  ⟨fun p v => ⟨setZN_zero p v, setZN_negative p v, fun _ => setZN_getLsbD_of_reserved p v,
      setZN_not_zero_and_negative p v⟩,
    fun s v => ⟨_, exec_ldaImm v s, rfl⟩, fun s => ⟨_, exec_tax s, rfl⟩, fun s => ⟨_, exec_inx s, rfl⟩⟩

/-! ### The host's access to the registers -/

section
variable (s : State) (r q : Reg) (v : Byte)

theorem State.readReg_writeReg :
    (s.writeReg r v).readReg q = if q = r then v else s.readReg q := by
  cases r <;> cases q <;> rfl

@[simp] theorem State.writeReg_pc : (s.writeReg r v).pc = s.pc := by cases r <;> rfl
@[simp] theorem State.writeReg_mem : (s.writeReg r v).mem = s.mem := by cases r <;> rfl
@[simp] theorem State.writeReg_seq : (s.writeReg r v).seq = s.seq := by cases r <;> rfl

@[simp] theorem State.readReg_setPc (pc : Address) : (s.setPc pc).readReg q = s.readReg q := by
  cases q <;> rfl
@[simp] theorem State.readReg_setSeq (m : Sequencer) : (s.setSeq m).readReg q = s.readReg q := by
  cases q <;> rfl

end

/-- A machine between runs, whose mark is at Fetch, begins a host operation as it is. -/
theorem perform_of_fetch (op : HostOp) {s : State} (h : s.seq = .fetch) :
    perform op s = performBetweenRuns op s := by
  rw [perform, ← h, State.setSeq_self]

/-- Settles O42: the state with the one register written holds the value, and every other register and all
of memory as before; the read answers it and the same state. -/
theorem hostRegisterAccess : Obligations.HostRegisterAccess := by
  constructor
  · intro s r v
    refine ⟨(s.setSeq .fetch).writeReg r v, rfl, ?_, fun q hne => ?_, by simp,
      fun addr => by simp [State.byteAt]⟩
    · rw [perform_of_fetch _ (by simp), performBetweenRuns, State.readReg_writeReg, if_pos rfl]
    · rw [State.readReg_writeReg, if_neg hne, State.readReg_setSeq]
  · intro s v
    exact ⟨(s.setSeq .fetch).setPc v, rfl, perform_of_fetch _ rfl, fun q => by simp, fun _ => rfl⟩

end Sys2Proof.Machine

/-! SUPPORT. The 16-bit access to memory: which byte of the word lies where (`20_memory.md`). -/

namespace Sys2Proof.Machine

theorem toNat_lowByte (v : Address) : (lowByte v).toNat = v.toNat % 256 :=
  BitVec.toNat_setWidth 8 v

theorem toNat_highByte (v : Address) : (highByte v).toNat = v.toNat / 256 := by
  have hv : v.toNat / 256 < 256 := by omega
  rw [highByte, BitVec.toNat_setWidth, BitVec.toNat_ushiftRight, Nat.shiftRight_eq_div_pow]
  exact Nat.mod_eq_of_lt hv

/-- Every byte of memory after a word is written at `a`, the low byte first (R35). -/
theorem Memory.byteAt_setByte_setByte_succ {m : Memory} {a : Nat} (lo hi : Byte) (b : Nat)
    (hw : Memory.wf m = true) (htop : a ≤ Config.memTop) :
    Memory.byteAt (Memory.setByte (Memory.setByte m a lo) (a + 1) hi) b =
      if b = a + 1 then hi else if b = a then lo else Memory.byteAt m b := by
  rw [Memory.byteAt_setByte _ _ _ (Memory.wf_setByte lo hw htop), Memory.byteAt_setByte _ _ _ hw]

/-- All a word write below the top of memory does: it answers the state with another memory, whose bytes
are the word's at `a` and `a + 1` and the old ones elsewhere (R35). -/
theorem memWrite16_spec {s : State} {a : Address} (v : Address) (hw : Memory.wf s.mem = true)
    (h : a.toNat + 1 ≤ Config.memTop) :
    ∃ m, memWrite16 s a v = .ok (s.setMem m) ∧
      (s.setMem m).byteAt a = lowByte v ∧ (s.setMem m).byteAt (a + 1) = highByte v ∧
      ∀ b : Address, b ≠ a → b ≠ a + 1 → (s.setMem m).byteAt b = s.byteAt b := by
  have htop : a.toNat ≤ Config.memTop := Nat.le_of_succ_le h
  have hsucc : (a + 1).toNat = a.toNat + 1 := toNat_succ_of_populated htop
  refine ⟨_, memWrite16_populated v h, ?_, ?_, fun b hb hb' => ?_⟩ <;>
    rw [State.byteAt, State.setMem_mem, Memory.byteAt_setByte_setByte_succ _ _ _ hw htop]
  · rw [if_neg (by omega), if_pos rfl]
  · rw [if_pos hsucc]
  · have hne : b.toNat ≠ a.toNat := fun e => hb (BitVec.eq_of_toNat_eq e)
    have hne' : b.toNat ≠ a.toNat + 1 := fun e => hb' (BitVec.eq_of_toNat_eq (e.trans hsucc.symm))
    rw [if_neg hne', if_neg hne, State.byteAt]

/-- Settles O32: the two bytes the write left, joined high to low, are the word. -/
theorem wordAccessIsLittleEndian : Obligations.WordAccessIsLittleEndian := by
  intro s addr v hw haddr
  have htop : addr.toNat + 1 ≤ Config.memTop := Nat.succ_le_succ haddr
  obtain ⟨m, hwrite, hlow, hhigh, hother⟩ := memWrite16_spec v hw htop
  refine ⟨s.setMem m, hwrite, ?_, ?_, ?_, hother, rfl, rfl, rfl, rfl, rfl, rfl⟩
  · rw [memRead16_populated htop, hlow, hhigh, joinBytes_high_low]
  · rw [hlow, toNat_lowByte]
  · rw [hhigh, toNat_highByte]

end Sys2Proof.Machine

/-! SUPPORT. The decoder of a list of bytes: one equation for each opcode, and from them the inversion of
the encoder and the length that the opcode byte fixes (`30_encoding.md`). -/

namespace Sys2Proof

/-! ### Decode, one equation for each thing it can answer -/

@[simp] theorem decode_nil : decode [] = .error .noOpcode := rfl

@[simp] theorem decode_ldaImm (imm8 : Byte) (rest : List Byte) :
    decode (0xA9#8 :: imm8 :: rest) = .ok (.ldaImm imm8, rest) := rfl

@[simp] theorem decode_ldaImm_cut : decode [0xA9#8] = .error .noOperand := rfl

@[simp] theorem decode_tax (rest : List Byte) : decode (0xAA#8 :: rest) = .ok (.tax, rest) := rfl

@[simp] theorem decode_inx (rest : List Byte) : decode (0xE8#8 :: rest) = .ok (.inx, rest) := rfl

@[simp] theorem decode_hlt (rest : List Byte) : decode (0x00#8 :: rest) = .ok (.hlt, rest) := rfl

theorem decode_unimplemented {op : Byte} (rest : List Byte) (h : decodeOpcode op = none) :
    decode (op :: rest) = .error (.unimplementedOpcode op) := by
  simp [decode, h]

/-! ### Decode inverts encode -/

theorem decode_encode_append (i : Instr) (rest : List Byte) : decode (encode i ++ rest) = .ok (i, rest) := by
  cases i with
  | ldaImm imm8 => exact decode_ldaImm imm8 rest
  | tax => exact decode_tax rest
  | inx => exact decode_inx rest
  | hlt => exact decode_hlt rest

/-- Only the bytes of an instruction decode to it: the four opcodes by their equations, and no other byte
decodes at all. -/
theorem eq_encode_append_of_decode {bytes rest : List Byte} {i : Instr}
    (h : decode bytes = .ok (i, rest)) : bytes = encode i ++ rest := by
  rcases bytes with _ | ⟨op, tail⟩
  · simp at h
  rcases decodeOpcode_cases op with ⟨rfl, -⟩ | ⟨rfl, -⟩ | ⟨rfl, -⟩ | ⟨rfl, -⟩ | ⟨-, hnone⟩
  · rcases tail with _ | ⟨imm8, tail⟩
    · simp at h
    · rw [decode_ldaImm] at h; cases h; rfl
  · rw [decode_tax] at h; cases h; rfl
  · rw [decode_inx] at h; cases h; rfl
  · rw [decode_hlt] at h; cases h; rfl
  · rw [decode_unimplemented tail hnone] at h; cases h

/-- Settles O3: encoded bytes decode back, and nothing else decodes to the instruction. -/
theorem decodeExactlyInvertsEncode : Obligations.DecodeExactlyInvertsEncode := by
  intro bytes rest i _
  refine ⟨eq_encode_append_of_decode, fun h => ?_⟩
  rw [h, decode_encode_append]

/-! ### The words of the table, and the opcode byte -/

/-- Settles O1: each word is an instance of one equation of the decoder. -/
theorem specWordsDecode : Obligations.SpecWordsDecode :=
  ⟨decode_ldaImm 0x05 [], decode_tax [], decode_inx [], decode_hlt [],
    decode_unimplemented [] rfl, decode_ldaImm_cut⟩

theorem decodeOpcode_eq_none_iff (b : Byte) :
    decodeOpcode b = none ↔ b ≠ 0xA9#8 ∧ b ≠ 0xAA#8 ∧ b ≠ 0xE8#8 ∧ b ≠ 0x00#8 := by
  constructor
  · intro h
    refine ⟨?_, ?_, ?_, ?_⟩ <;> (rintro rfl; simp at h)
  · rintro ⟨hlda, htax, hinx, hhlt⟩
    simp [decodeOpcode, hlda, htax, hinx, hhlt]

/-- Settles O2: each opcode comes from its one byte, and from no byte exactly when it is none of the four. -/
theorem opcodeByteDecoding : Obligations.OpcodeByteDecoding := by
  intro b
  refine ⟨⟨decodeOpcode_ldaImm, ?_⟩, ⟨decodeOpcode_tax, ?_⟩, ⟨decodeOpcode_inx, ?_⟩,
    ⟨decodeOpcode_hlt, ?_⟩, decodeOpcode_eq_none_iff b⟩ <;> (rintro rfl; simp)

/-! ### The length -/

theorem encodedLength (i : Instr) : Laws.EncodedLength.Statement i := by
  cases i with
  | ldaImm imm8 => exact Laws.EncodedLength.ldaImm imm8
  | tax => exact Laws.EncodedLength.tax
  | inx => exact Laws.EncodedLength.inx
  | hlt => exact Laws.EncodedLength.hlt

theorem length_encode (i : Instr) : (encode i).length = i.length := (encodedLength i).1

/-- A list that begins with an instruction's bytes begins with the byte that fixes its length (R57). -/
theorem opcodeLength_of_cons_eq_encode_append {op : Byte} {rest rest' : List Byte} {i : Instr}
    (h : op :: rest = encode i ++ rest') : opcodeLength op = i.length := by
  obtain ⟨-, hop⟩ := encodedLength i
  rcases he : encode i with _ | ⟨first, operands⟩
  · simp [he] at hop
  · rw [he, List.cons_append] at h
    obtain ⟨rfl, -⟩ := List.cons.inj h
    simpa [he] using hop

/-- Settles O4: the bytes that decode are the instruction's own and then the rest. -/
theorem opcodeByteDeterminesLength : Obligations.OpcodeByteDeterminesLength := by
  intro op rest rest' i h
  have hbytes : op :: rest = encode i ++ rest' := eq_encode_append_of_decode h
  constructor
  · exact (opcodeLength_of_cons_eq_encode_append hbytes).symm
  · rw [hbytes, List.length_append, length_encode]

end Sys2Proof

/-! SUPPORT. One step by the instruction the bytes at pc decode to: which instruction runs, and how far it
moves pc (`40_execution_loop.md`). -/

namespace Sys2Proof

theorem Instr.length_eq_one_or_two (i : Instr) : i.length = 1 ∨ i.length = 2 := by
  cases i with
  | ldaImm imm8 => exact .inr rfl
  | tax => exact .inl rfl
  | inx => exact .inl rfl
  | hlt => exact .inl rfl

end Sys2Proof

namespace Sys2Proof.Machine

theorem exec_keeps_pc {i : Instr} {s t : State} (h : exec i s = .next t) : t.pc = s.pc := by
  obtain ⟨u, hu, -, hpc, -⟩ := exec_next i s
  cases h.symm.trans hu
  exact hpc

/-- A fetch never decodes otherwise than `decode` does: it answers the instruction that the bytes at pc
decode to, which lies in populated memory, with pc moved past it. -/
theorem fetchInstr_of_decode {s : State} {i : Instr} {rest : List Byte}
    (h : decode s.bytesAtPc = .ok (i, rest)) :
    s.pc.toNat + i.length ≤ Config.memTop + 1 ∧
      fetchInstr s = .ok (i, s.setPc (s.pc + BitVec.ofNat 16 i.length)) := by
  rcases fetchInstr_bytes s with ⟨-, hb, -⟩ | ⟨-, hop, ⟨tail, hb⟩, -⟩ | ⟨-, -, hb, -⟩ |
    ⟨j, tail, hle, hb, -, hf⟩ <;> rw [hb] at h
  · cases decode_nil.symm.trans h
  · cases (decode_unimplemented tail hop).symm.trans h
  · cases decode_ldaImm_cut.symm.trans h
  · cases (decode_encode_append j tail).symm.trans h
    exact ⟨hle, hf⟩

/-- Settles O20: a step that goes on executes an instruction whose bytes stand at pc, and its meaning keeps
the pc that the fetch has moved past them. -/
theorem pcAdvancesByTheLength : Obligations.PcAdvancesByTheLength := by
  intro s t hs hstep
  rcases step_next_cases hstep with ⟨hhalted, -⟩ | ⟨-, i, rest, hle, hb, -, hexec⟩
  · cases hs.symm.trans hhalted
  · refine ⟨i, rest, ?_, ?_, i.length_eq_one_or_two⟩
    · rw [hb, decode_encode_append]
    · rw [exec_keeps_pc hexec, State.setPc_pc, toNat_pc_add_length hle]

/-- Settles O12: the fetch answers the decoded instruction, and pc behind populated bytes does not wrap. -/
theorem stepRunsDecodedInstruction : Obligations.StepRunsDecodedInstruction := by
  intro s i rest hs hdecode _
  obtain ⟨hle, hfetch⟩ := fetchInstr_of_decode hdecode
  exact ⟨step_of_fetched hs hfetch, toNat_pc_add_length hle⟩

end Sys2Proof.Machine

/-! SUPPORT. TAX: its meaning with its frame, and the whole step, through a lemma about every instruction
that is its opcode byte alone (`42_register_transfer.md`). -/

namespace Sys2Proof.Machine

section
variable (s : State) (v : Byte)

theorem State.updateZN_zeroFlag_iff : (s.updateZN v).zeroFlag = true ↔ v = 0 := by
  rw [State.zeroFlag, State.updateZN_p, setZN_zero, decide_eq_true_eq]

@[simp] theorem State.updateZN_negativeFlag : (s.updateZN v).negativeFlag = v.getLsbD 7 :=
  setZN_negative s.p v

@[simp] theorem State.updateZN_reservedBits : (s.updateZN v).reservedBits = s.reservedBits :=
  setZN_reserved s.p v

end

/-- Settles O8: TAX writes X and then SetZN's P; the flags and the reserved bits by SetZN's rules, every
other field by the two updates' own equations. -/
theorem taxExecutes : Obligations.TaxExecutes := by
  intro s
  exact ⟨_, exec_tax s, rfl, State.updateZN_zeroFlag_iff _ s.a, State.updateZN_negativeFlag _ s.a,
    State.updateZN_reservedBits _ s.a, rfl, rfl, rfl, rfl, fun _ => rfl⟩

/-- An instruction whose one byte stands at a populated pc is the one the step runs, from the pc behind
that byte (R67 to R70). -/
theorem step_of_encode_eq_singleton {s : State} {i : Instr} (hs : s.seq = .fetch)
    (hpc : s.pc.toNat ≤ Config.memTop) (hbyte : encode i = [s.byteAt s.pc]) :
    step s = exec i (s.setPc (s.pc + 1)) := by
  obtain ⟨tail, hbytes⟩ := bytesAtPc_head hpc
  have hdecode : decode s.bytesAtPc = .ok (i, tail) := by
    rw [hbytes, ← List.singleton_append, ← hbyte, decode_encode_append]
  have hlength : i.length = 1 := by rw [← length_encode, hbyte, List.length_singleton]
  obtain ⟨-, hfetch⟩ := fetchInstr_of_decode hdecode
  rw [hlength] at hfetch
  exact step_of_fetched hs hfetch

/-- Settles O15: 0xAA is all of TAX's bytes, so the step is TAX's meaning from pc + 1, and the formula for
P is SetZN's own. -/
theorem taxStep : Obligations.TaxStep := by
  intro s hs hpc hbyte
  have hencode : encode .tax = [s.byteAt s.pc] := by rw [hbyte]; rfl
  rw [step_of_encode_eq_singleton hs hpc hencode, exec_tax]
  rfl

end Sys2Proof.Machine

/-! SUPPORT. INX: when the incremented byte is zero and when its bit 7 is set, in terms of the old byte, and
from them its meaning with its frame (`43_increment.md`). -/

namespace Sys2Proof.Machine

/-- The increment wraps to zero from 0xFF and from no other byte (R91). -/
theorem incrementByte_eq_zero_iff (v : Byte) : incrementByte v = 0 ↔ v = 0xFF := by
  have hv := v.isLt
  rw [← BitVec.toNat_inj, ← BitVec.toNat_inj, toNat_incrementByte]
  change (v.toNat + 1) % 256 = 0 ↔ v.toNat = 255
  omega

/-- Bit 7 of a byte is set exactly when its value is at least 0x80. -/
theorem getLsbD_seven_iff (v : Byte) : v.getLsbD 7 = true ↔ 0x80 ≤ v.toNat := by
  have hmsb : v.msb = v.getLsbD 7 := BitVec.msb_eq_getLsbD_last v
  rw [← hmsb, BitVec.msb_eq_decide, decide_eq_true_eq]

/-- The incremented byte has bit 7 set exactly when the old one was in 0x7F..0xFE (R91). -/
theorem incrementByte_getLsbD_seven_iff (v : Byte) :
    (incrementByte v).getLsbD 7 = true ↔ 0x7F ≤ v.toNat ∧ v.toNat ≤ 0xFE := by
  have hv := v.isLt
  rw [getLsbD_seven_iff, toNat_incrementByte]
  omega

/-- Settles O9: INX writes X and then SetZN's P; the flags are those of the incremented byte, read back to
the old X, and every other field stands by the two updates' own equations. -/
theorem inxExecutes : Obligations.InxExecutes := by
  intro s
  have hn : ((s.setX (incrementByte s.x)).updateZN (incrementByte s.x)).negativeFlag = true ↔
      0x7F ≤ s.x.toNat ∧ s.x.toNat ≤ 0xFE := by
    rw [State.updateZN_negativeFlag, incrementByte_getLsbD_seven_iff]
  exact ⟨_, exec_inx s, toNat_incrementByte s.x,
    (State.updateZN_zeroFlag_iff _ _).trans (incrementByte_eq_zero_iff s.x), hn,
    State.updateZN_reservedBits _ _, rfl, rfl, rfl, rfl, fun _ => rfl⟩

end Sys2Proof.Machine

/-! SUPPORT. POWER_ON and RESET: the memory that power-on leaves, and the two operations of the host
(`70_reset_and_hazards.md`). -/

namespace Sys2Proof.Machine

theorem powerOn_byteAt (addr : Address) : powerOn.byteAt addr = 0 := Memory.byteAt_nil addr.toNat

/-- Settles O36: POWER_ON answers one fixed state; every address but 0xFFFF is populated, so the checked read
there answers the byte of its empty memory, which is zero. -/
theorem powerOnZeroesEverything : Obligations.PowerOnZeroesEverything := by
  intro s
  refine ⟨powerOn, rfl, rfl, rfl, rfl, rfl, rfl, fun addr hne => ?_⟩
  have hpop : addr.toNat ≤ Config.memTop := Nat.le_of_not_lt (mt (not_populated_iff addr).mp hne)
  rw [memRead_populated hpop, powerOn_byteAt]

/-- Settles O37: the state RESET answers differs from the old one in A, X, P, the mark and pc alone, and its
pc is the two bytes of the vector joined high to low. -/
theorem resetRule : Obligations.ResetRule := by
  intro s
  exact ⟨_, hostReset_eq s, rfl, rfl, rfl, toNat_joinBytes _ _, rfl, fun _ => rfl⟩

end Sys2Proof.Machine

/-! SUPPORT. The static walk of a whole program: one equation for the bytes of an instruction, and from it
the inversion of the assembly (`30_encoding.md` R57, R59). -/

namespace Sys2Proof

theorem assemble_instr_cons (i : Instr) (program : List Instr) :
    assemble ((i :: program).map .instr) = encode i ++ assemble (program.map .instr) := rfl

/-- The walk reads the instruction whose bytes come first and goes on behind them (R57). -/
theorem disassemble_encode_append (i : Instr) (rest : List Byte) :
    disassemble (encode i ++ rest) = (disassemble rest).map (i :: ·) := by
  cases i with
  | ldaImm imm8 => exact disassemble_ldaImm imm8 rest
  | tax => exact disassemble_tax rest
  | inx => exact disassemble_inx rest
  | hlt => exact disassemble_hlt rest

/-- All a list of bytes can be for the walk: empty, the bytes of an instruction and then others, or one that
the walk rejects. -/
theorem disassemble_cases (bytes : List Byte) :
    bytes = [] ∨ (∃ i rest, bytes = encode i ++ rest) ∨ ∃ e, disassemble bytes = .error e := by
  rcases bytes with _ | ⟨op, tail⟩
  · exact .inl rfl
  refine .inr ?_
  rcases decodeOpcode_cases op with ⟨rfl, -⟩ | ⟨rfl, -⟩ | ⟨rfl, -⟩ | ⟨rfl, -⟩ | ⟨-, hnone⟩
  · rcases tail with _ | ⟨imm8, rest⟩
    · exact .inr ⟨_, disassemble_ldaImm_cut⟩
    · exact .inl ⟨.ldaImm imm8, rest, rfl⟩
  · exact .inl ⟨.tax, tail, rfl⟩
  · exact .inl ⟨.inx, tail, rfl⟩
  · exact .inl ⟨.hlt, tail, rfl⟩
  · exact .inr ⟨_, disassemble_unimplemented tail hnone⟩

theorem disassemble_assemble (program : List Instr) :
    disassemble (assemble (program.map .instr)) = .ok program := by
  induction program with
  | nil => rfl
  | cons i program ih => rw [assemble_instr_cons, disassemble_encode_append, ih]; rfl

/-- The walk reads a program only from its assembly: each instruction read accounts for its own bytes. -/
theorem eq_assemble_of_disassemble {bytes : List Byte} {program : List Instr}
    (h : disassemble bytes = .ok program) : bytes = assemble (program.map .instr) := by
  induction program generalizing bytes with
  | nil =>
    rcases disassemble_cases bytes with rfl | ⟨i, rest, rfl⟩ | ⟨e, he⟩
    · rfl
    · rw [disassemble_encode_append] at h
      cases hrest : disassemble rest <;> rw [hrest] at h <;> cases h
    · cases he.symm.trans h
  | cons j program ih =>
    rcases disassemble_cases bytes with rfl | ⟨i, rest, rfl⟩ | ⟨e, he⟩
    · cases h
    · rw [disassemble_encode_append] at h
      cases hrest : disassemble rest with
      | error e => rw [hrest] at h; cases h
      | ok tail =>
        rw [hrest] at h
        cases h
        rw [assemble_instr_cons, ← ih hrest]
    · cases he.symm.trans h

/-- Settles O5: the assembly of a program reads back as it, and no other list of bytes does. -/
theorem disassembleExactlyInvertsAssembly : Obligations.DisassembleExactlyInvertsAssembly := by
  intro bytes program _
  refine ⟨eq_assemble_of_disassemble, fun h => ?_⟩
  rw [h, disassemble_assemble]

/-! ### The words of the opcode table -/

theorem Instr.wellFormed_eq_true (i : Instr) : i.wellFormed = true := by
  cases i <;> rfl

theorem decode_of_decodeTableWord {nbits w : Nat} {i : Instr} (h : decodeTableWord nbits w = some i) :
    ∃ rest, decode (tableWordBytes nbits w) = .ok (i, rest) := by
  unfold decodeTableWord at h
  cases hd : decode (tableWordBytes nbits w) with
  | error e => rw [hd] at h; cases h
  | ok r =>
    obtain ⟨j, rest⟩ := r
    rw [hd] at h
    cases h
    exact ⟨rest, rfl⟩

end Sys2Proof

/-! SUPPORT. One step: when it faults and with what, what it does when it goes on or halts, and the invariant
that every step keeps (`40_execution_loop.md`, `44_halt.md`, `60_exceptions.md`). -/

namespace Sys2Proof.Machine

/-! ### Faults -/

/-- A step faults exactly when the sequencer is at Fetch and the fetch faults: no meaning faults. -/
theorem step_fault_iff {s : State} {f : Fault} :
    step s = .fault f ↔ s.seq = .fetch ∧ fetchInstr s = .error f := by
  constructor
  · intro h
    cases hs : s.seq with
    | halted => cases (step_of_halted hs).symm.trans h
    | fetch =>
      refine ⟨rfl, ?_⟩
      cases hf : fetchInstr s with
      | error g => cases (step_of_fault hs hf).symm.trans h; rfl
      | ok r =>
        obtain ⟨i, t⟩ := r
        obtain ⟨u, hu, -⟩ := exec_next i t
        cases ((step_of_fetched hs hf).trans hu).symm.trans h
  · rintro ⟨hs, hf⟩
    exact step_of_fault hs hf

/-- Settles O19: a halted state is answered, a fetch that faults is the step's fault, and the meaning of a
fetched instruction answers a next state. -/
theorem stepIsTotal : Obligations.StepIsTotal := by
  intro s
  cases hs : s.seq with
  | halted => exact .inl ⟨s, step_of_halted hs⟩
  | fetch =>
    cases hf : fetchInstr s with
    | error f => exact .inr ⟨f, step_of_fault hs hf⟩
    | ok r =>
      obtain ⟨i, t⟩ := r
      obtain ⟨u, hu, -⟩ := exec_next i t
      exact .inl ⟨u, (step_of_fetched hs hf).trans hu⟩

theorem populated_iff (a : Address) : a.toNat ≤ Config.memTop ↔ a ≠ 0xFFFF := by
  rw [ne_eq, ← not_populated_iff, not_lt]

/-! The three faults a fetch can raise (R101, R102, R106, R107). -/

theorem fetchInstr_top {s : State} (hpc : s.pc = 0xFFFF) :
    fetchInstr s = .error (.boundsViolation 0xFFFF s) := by
  rw [fetchInstr, fetchByte_top ((not_populated_iff s.pc).mpr hpc), hpc]

theorem fetchInstr_unimplemented {s : State} (hpc : s.pc ≠ 0xFFFF)
    (hop : decodeOpcode (s.byteAt s.pc) = none) :
    fetchInstr s = .error (.unimplementedOpcode (s.byteAt s.pc) (s.pc + 1) (s.setPc (s.pc + 1))) := by
  simp [fetchInstr, fetchByte_populated ((populated_iff s.pc).mpr hpc), hop, raiseFault]

theorem fetchInstr_operand_top {s : State} (hpc : s.pc = 0xFFFE) (hop : s.byteAt s.pc = 0xA9#8) :
    fetchInstr s = .error (.boundsViolation 0xFFFF (s.setPc 0xFFFF)) := by
  have hfetch : fetchByte s = .ok (0xA9#8, s.setPc 0xFFFF) := by
    rw [fetchByte_populated (by rw [hpc]; decide), hop, hpc]; rfl
  simp only [fetchInstr, hfetch, decodeOpcode_A9, fetchImmediate]
  rw [fetchByte_top (by rw [State.setPc_pc]; decide)]; rfl

theorem fetchInstr_error_iff {s : State} {f : Fault} : fetchInstr s = .error f ↔
    (s.pc = 0xFFFF ∧ f = .boundsViolation 0xFFFF s) ∨
    (s.pc ≠ 0xFFFF ∧ decodeOpcode (s.byteAt s.pc) = none ∧
      f = .unimplementedOpcode (s.byteAt s.pc) (s.pc + 1) (s.setPc (s.pc + 1))) ∨
    (s.pc = 0xFFFE ∧ s.byteAt s.pc = 0xA9#8 ∧ f = .boundsViolation 0xFFFF (s.setPc 0xFFFF)) := by
  constructor
  · intro h
    rcases fetchInstr_cases s with ⟨hpc, hf⟩ | ⟨hpc, hop, hf⟩ | ⟨hpc, hop, hf⟩ | ⟨-, -, hf⟩ | ⟨-, -, hf⟩ |
      ⟨-, -, hf⟩ | ⟨-, -, hf⟩ <;> cases hf.symm.trans h
    · have htop : s.pc = 0xFFFF := (not_populated_iff s.pc).mp hpc
      exact .inl ⟨htop, by rw [htop]⟩
    · exact .inr (.inl ⟨(populated_iff s.pc).mp hpc, hop, rfl⟩)
    · have hlast : s.pc = 0xFFFE := BitVec.eq_of_toNat_eq hpc
      exact .inr (.inr ⟨hlast, hop, by rw [hlast]; rfl⟩)
  · rintro (⟨hpc, rfl⟩ | ⟨hpc, hop, rfl⟩ | ⟨hpc, hop, rfl⟩)
    · exact fetchInstr_top hpc
    · exact fetchInstr_unimplemented hpc hop
    · exact fetchInstr_operand_top hpc hop

/-- Settles O18: the step faults as its fetch does, and Decode rejects the bytes that are none of the four. -/
theorem stepFaultsExactlyWhen : Obligations.StepFaultsExactlyWhen := by
  intro s f
  rw [step_fault_iff, fetchInstr_error_iff, decodeOpcode_eq_none_iff]
  simp only [and_assoc]
  rfl

/-- A step that faults leaves its state but for pc (R107). -/
theorem stateLeft_of_step_fault {s : State} {f : Fault} (h : step s = .fault f) :
    ∃ pc, f.stateLeft = s.setPc pc := by
  obtain ⟨-, hf⟩ := step_fault_iff.mp h
  rcases fetchInstr_error_iff.mp hf with ⟨-, rfl⟩ | ⟨-, -, rfl⟩ | ⟨-, -, rfl⟩
  · exact ⟨s.pc, rfl⟩
  · exact ⟨s.pc + 1, rfl⟩
  · exact ⟨0xFFFF, rfl⟩

/-! ### Steps that go on and the step that halts -/

theorem step_keeps_mem {s t : State} (h : step s = .next t) : t.mem = s.mem := by
  rcases step_next_cases h with ⟨-, rfl⟩ | ⟨-, i, rest, -, -, -, hexec⟩
  · rfl
  · obtain ⟨u, hu, -, -, hmem⟩ := exec_next i (s.setPc (s.pc + BitVec.ofNat 16 i.length))
    cases hexec.symm.trans hu
    exact hmem

/-- What a step from Fetch that does not fault can do to the sequencer (R65): go on, with pc further up, or
execute the halt opcode at pc, which changes pc and the mark alone (R95). -/
theorem step_sequencer_cases {s t : State} (hs : s.seq = .fetch) (h : step s = .next t) :
    (t.seq = .fetch ∧ s.pc.toNat < t.pc.toNat) ∨
    (t.seq = .halted ∧ s.pc.toNat ≤ Config.memTop ∧ s.byteAt s.pc = 0x00#8 ∧
      t = (s.setPc (s.pc + 1)).setSeq .halted) := by
  rcases step_next_cases h with ⟨hhalted, -⟩ | ⟨-, i, rest, hle, -, hop, hexec⟩
  · cases hs.symm.trans hhalted
  have hpc : t.pc.toNat = s.pc.toNat + i.length := by
    rw [exec_keeps_pc hexec, State.setPc_pc, toNat_pc_add_length hle]
  have hlt : s.pc.toNat < t.pc.toNat := by
    rcases i.length_eq_one_or_two with hlen | hlen <;> omega
  cases i with
  | ldaImm imm8 => cases hexec; exact .inl ⟨hs, hlt⟩
  | tax => cases hexec; exact .inl ⟨hs, hlt⟩
  | inx => cases hexec; exact .inl ⟨hs, hlt⟩
  | hlt =>
    cases hexec
    exact .inr ⟨rfl, Nat.le_of_succ_le_succ hle, (Option.some.inj hop).symm, rfl⟩

/-- Settles O22: no step changes memory, and the one step that sets the mark leaves pc right behind the halt
opcode it executed. -/
theorem stepKeepsInv : Obligations.StepKeepsInv := by
  rintro s t ⟨hwf, hmark⟩ hstep
  refine ⟨by rw [step_keeps_mem hstep]; exact hwf, ?_⟩
  cases hs : s.seq with
  | halted =>
    cases (step_of_halted hs).symm.trans hstep
    exact hmark
  | fetch =>
    intro hhalted
    rcases step_sequencer_cases hs hstep with ⟨hfetch, -⟩ | ⟨-, hpc, hbyte, rfl⟩
    · cases hfetch.symm.trans hhalted
    · have hsucc : (s.pc + 1).toNat = s.pc.toNat + 1 := toNat_succ_of_populated hpc
      simp only [State.setSeq_pc, State.setPc_pc, State.setSeq_mem, State.setPc_mem, hsucc]
      exact ⟨Nat.succ_pos _, hbyte⟩

/-! ### HLT -/

/-- Settles O10: HLT's meaning writes the mark alone. -/
theorem hltExecutes : Obligations.HltExecutes :=
  fun s => ⟨s.setSeq .halted, exec_hlt s, rfl, rfl, rfl, rfl, rfl, rfl, fun _ => rfl⟩

theorem run_of_halted {s : State} (h : s.seq = .halted) (n : Nat) :
    Host.Core.run Sys2Proof.core n s = .next s := by
  induction n with
  | zero => rfl
  | succ n ih => rw [run_next (step_of_halted h), ih]

/-- Settles O17: 0x00 is all of HLT's bytes, so the step is HLT's meaning from pc + 1, and every later step
answers the halted state. -/
theorem hltStepEndsTheRun : Obligations.HltStepEndsTheRun := by
  intro s hs hpc hbyte
  have hencode : encode .hlt = [s.byteAt s.pc] := by rw [hbyte]; rfl
  have hstep : step s = .next ((s.setPc (s.pc + 1)).setSeq .halted) := by
    rw [step_of_encode_eq_singleton hs hpc hencode, exec_hlt]
  refine ⟨hstep, fun n => ?_⟩
  rw [run_next hstep, run_of_halted rfl]
  rfl

/-! ### INX -/

/-- Settles O16: 0xE8 is all of INX's bytes, so the step is INX's meaning from pc + 1, with the incremented
byte for r. -/
theorem inxStep : Obligations.InxStep := by
  intro s hs hpc hbyte
  have hencode : encode .inx = [s.byteAt s.pc] := by rw [hbyte]; rfl
  refine ⟨incrementByte s.x, toNat_incrementByte s.x, ?_⟩
  rw [step_of_encode_eq_singleton hs hpc hencode, exec_inx]
  rfl

/-- `n` consecutive INX, from any state (R90). -/
theorem execTimes_inx (n : Nat) (s : State) : ∃ t, execTimes .inx n s = some t ∧
    t.x.toNat = (s.x.toNat + n) % 256 ∧ t.a = s.a ∧ t.y = s.y := by
  induction n generalizing s with
  | zero => exact ⟨s, rfl, (Nat.mod_eq_of_lt s.x.isLt).symm, rfl, rfl⟩
  | succ n ih =>
    obtain ⟨t, ht, hx, ha, hy⟩ := ih ((s.setX (incrementByte s.x)).updateZN (incrementByte s.x))
    refine ⟨t, ht, ?_, ha, hy⟩
    rw [hx, State.updateZN_x, State.setX_x, toNat_incrementByte]
    omega

/-- Settles O11: by induction on the number of increments; 256 is 0 modulo 256. -/
theorem consecutiveInxWrap : Obligations.ConsecutiveInxWrap := by
  refine ⟨execTimes_inx, fun s => ?_⟩
  obtain ⟨t, ht, hx, -, -⟩ := execTimes_inx 256 s
  refine ⟨t, ht, BitVec.eq_of_toNat_eq ?_⟩
  rw [hx, Nat.add_mod_right, Nat.mod_eq_of_lt s.x.isLt]

/-! ### LDA # -/

/-- Settles O7: LDA # writes A and then SetZN's P; the flags and the reserved bits by SetZN's rules, every
other field by the two updates' own equations. -/
theorem ldaImmExecutes : Obligations.LdaImmExecutes := by
  intro v s
  exact ⟨_, exec_ldaImm v s, rfl, State.updateZN_zeroFlag_iff _ v, State.updateZN_negativeFlag _ v,
    State.updateZN_reservedBits _ v, rfl, rfl, rfl, rfl, fun _ => rfl⟩

/-- Settles O14: the two bytes at pc decode to LDA # of the second, so the step is its meaning from pc + 2. -/
theorem ldaImmStep : Obligations.LdaImmStep := by
  intro s hs hpc hbyte
  have hdecode : decode s.bytesAtPc = .ok (.ldaImm (s.byteAt (s.pc + 1)), []) := by
    rw [bytesAtPc_two (Nat.succ_le_succ hpc), hbyte, decode_ldaImm]
  obtain ⟨hstep, -⟩ := stepRunsDecodedInstruction s _ _ hs hdecode rfl
  rw [hstep, exec_ldaImm]
  rfl

/-! ### The placed word -/

section
variable {s : State} (b c : Byte)

theorem byteAt_placeInstruction_two (hw : Memory.wf s.mem = true) (htop : s.pc.toNat + 1 ≤ Config.memTop)
    (a : Nat) : Memory.byteAt (placeInstruction s [b, c]).mem a =
      if a = s.pc.toNat + 1 then c else if a = s.pc.toNat then b else Memory.byteAt s.mem a := by
  have hpc : s.pc.toNat ≤ Config.memTop := Nat.le_of_succ_le htop
  simp only [placeInstruction, placeBytes, State.setSeq_mem, State.setMem_mem, if_pos hpc, if_pos htop]
  exact Memory.byteAt_setByte_setByte_succ b c a hw hpc

theorem bytesAtPc_placeInstruction_two (hw : Memory.wf s.mem = true)
    (htop : s.pc.toNat + 1 ≤ Config.memTop) : (placeInstruction s [b, c]).bytesAtPc = [b, c] := by
  have hsucc : (s.pc + 1).toNat = s.pc.toNat + 1 := toNat_succ_of_populated (Nat.le_of_succ_le htop)
  have hpc : (placeInstruction s [b, c]).pc = s.pc := rfl
  rw [bytesAtPc_two (by rw [hpc]; exact htop), hpc, State.byteAt, State.byteAt, hsucc,
    byteAt_placeInstruction_two b c hw htop, byteAt_placeInstruction_two b c hw htop]
  simp

end

/-- Settles O13: where both bytes are populated, the placed word is the bytes at pc, and the step runs what
they decode to. -/
theorem placedWordIsTheNextInstruction : Obligations.PlacedWordIsTheNextInstruction := by
  intro s nbits w i hw hpc hword
  have htop : s.pc.toNat + 1 ≤ Config.memTop := Nat.succ_le_succ hpc
  have hsucc : (s.pc + 1).toNat = s.pc.toNat + 1 := toNat_succ_of_populated (Nat.le_of_succ_le htop)
  obtain ⟨rest, hdecode⟩ := decode_of_decodeTableWord hword
  have hbytes : (s.withFetchWord nbits w).bytesAtPc = tableWordBytes nbits w :=
    bytesAtPc_placeInstruction_two _ _ hw htop
  obtain ⟨hstep, -⟩ := stepRunsDecodedInstruction (s.withFetchWord nbits w) i rest rfl
    (by rw [hbytes, hdecode]) (Instr.wellFormed_eq_true i)
  refine ⟨hstep, rfl, rfl, rfl, rfl, rfl, fun addr hne hne' => ?_⟩
  have hkeep : addr.toNat ≠ s.pc.toNat := fun e => hne (BitVec.eq_of_toNat_eq e)
  have hkeep' : addr.toNat ≠ s.pc.toNat + 1 := fun e => hne' (BitVec.eq_of_toNat_eq (e.trans hsucc.symm))
  rw [State.byteAt, State.withFetchWord, tableWordBytes, byteAt_placeInstruction_two _ _ hw htop,
    if_neg hkeep', if_neg hkeep, State.byteAt]

end Sys2Proof.Machine

/-! SUPPORT. Runs: how EXECUTE ends, as a relation that its loop decides, and from it the bound on its steps,
the iteration of step, and what a run leaves (`40_execution_loop.md` R71 to R75). -/

namespace Sys2Proof.Machine

/-! ### How a run ends -/

/-- The step from `s` ends the run: Halted with the state, or Faulted with the fault (R71). -/
def LastStep (s : State) : Except Fault State → Prop
  | .ok t => step s = .next t ∧ t.seq = .halted
  | .error f => step s = .fault f

/-- The steps from `s` end the run with an outcome: the next one does, or it goes on and later ones do. -/
inductive RunEnds : State → Except Fault State → Prop
  | last {s : State} {r : Except Fault State} : LastStep s r → RunEnds s r
  | goesOn {s t : State} {r : Except Fault State} :
      step s = .next t → t.seq = .fetch → RunEnds t r → RunEnds s r

/-- The machine state an outcome comes with. -/
def finalState : Except Fault State → State
  | .ok t => t
  | .error f => f.stateLeft

theorem runEnds_of_runLoop {n : Nat} {s : State} {r : Except Fault State} (h : runLoop n s = some r) :
    RunEnds s r := by
  induction n generalizing s with
  | zero => cases h
  | succ n ih =>
    rw [runLoop_succ] at h
    rcases stepIsTotal s with ⟨t, ht⟩ | ⟨f, hf⟩
    · rw [ht] at h
      cases hseq : t.seq with
      | halted =>
        simp only [hseq] at h
        cases h
        exact .last ⟨ht, hseq⟩
      | fetch =>
        simp only [hseq] at h
        exact .goesOn ht hseq (ih h)
    · rw [hf] at h
      cases h
      exact .last hf

theorem LastStep.unique {s : State} {r r' : Except Fault State} (h : LastStep s r) (h' : LastStep s r') :
    r = r' := by
  cases r with
  | ok t =>
    cases r' with
    | ok t' => cases h.1.symm.trans h'.1; rfl
    | error f' => cases h.1.symm.trans h'
  | error f =>
    cases r' with
    | ok t' => cases h.symm.trans h'.1
    | error f' => cases h.symm.trans h'; rfl

/-- A step that ends the run does not go on. -/
theorem LastStep.not_goesOn {s t : State} {r : Except Fault State} (h : LastStep s r)
    (hstep : step s = .next t) : t.seq ≠ .fetch := by
  cases r with
  | ok u =>
    obtain ⟨hu, hhalted⟩ := h
    cases hstep.symm.trans hu
    exact fun hfetch => nomatch hfetch.symm.trans hhalted
  | error f => cases hstep.symm.trans h

/-- Steps are a function, so a run has one outcome. -/
theorem RunEnds.unique {s : State} {r r' : Except Fault State} (h : RunEnds s r) (h' : RunEnds s r') :
    r = r' := by
  induction h with
  | last hlast =>
    cases h' with
    | last hlast' => exact hlast.unique hlast'
    | goesOn hstep hseq => exact absurd hseq (hlast.not_goesOn hstep)
  | goesOn hstep hseq _ ih =>
    cases h' with
    | last hlast => exact absurd hseq (hlast.not_goesOn hstep)
    | goesOn hstep' _ h' =>
      cases hstep.symm.trans hstep'
      exact ih h'

/-- Every step that goes on moves pc up, so EXECUTE's loop ends before its bound cuts it short (R73). -/
theorem runLoop_ends {n : Nat} {s : State} (hs : s.seq = .fetch) (hn : 65536 ≤ s.pc.toNat + n) :
    ∃ r, runLoop n s = some r := by
  induction n generalizing s with
  | zero => have := s.pc.isLt; omega
  | succ n ih =>
    rw [runLoop_succ]
    rcases stepIsTotal s with ⟨t, ht⟩ | ⟨f, hf⟩
    · rw [ht]
      rcases step_sequencer_cases hs ht with ⟨hseq, hlt⟩ | ⟨hseq, -⟩
      · simp only [hseq]
        exact ih hseq (by omega)
      · simp only [hseq]
        exact ⟨_, rfl⟩
    · rw [hf]
      exact ⟨_, rfl⟩

theorem runLoop_eq_some_iff {s : State} {r : Except Fault State} (hs : s.seq = .fetch) :
    runLoop Config.maxSteps s = some r ↔ RunEnds s r := by
  refine ⟨runEnds_of_runLoop, fun h => ?_⟩
  obtain ⟨r', hr'⟩ := runLoop_ends hs (Nat.le_add_left 65536 _)
  rw [h.unique (runEnds_of_runLoop hr')]
  exact hr'

theorem runHalts_iff {s t : State} :
    RunHalts s t ↔ ∃ u, RunEnds (s.setSeq .fetch) (.ok u) ∧ t = u.setSeq .fetch := by
  rw [RunHalts, execute_ok_iff]
  simp only [runLoop_eq_some_iff (State.setSeq_seq s .fetch)]

theorem runFaults_iff {s : State} {f : Fault} :
    RunFaults s f ↔ RunEnds (s.setSeq .fetch) (.error f) := by
  rw [RunFaults, execute_error_iff, runLoop_eq_some_iff (State.setSeq_seq s .fetch)]

/-! ### The bound on the steps -/

theorem execute_ends (s : State) : ∃ r, execute s = some r := by
  obtain ⟨r, hr⟩ := runLoop_ends (State.setSeq_seq s .fetch) (Nat.le_add_left 65536 _)
  exact ⟨returnOutcome r, by rw [execute, Config.maxSteps, hr]; rfl⟩

/-- Steps that lead to a state that still runs have each moved pc up. -/
theorem pc_add_le_of_run {n : Nat} {s t : State} (h : Host.Core.run Sys2Proof.core n s = .next t)
    (ht : t.seq = .fetch) : s.pc.toNat + n ≤ t.pc.toNat := by
  induction n generalizing s with
  | zero => cases h; exact Nat.le_refl _
  | succ n ih =>
    have hs : s.seq = .fetch := by
      cases hs : s.seq with
      | fetch => rfl
      | halted =>
        cases (run_of_halted hs _).symm.trans h
        exact hs.symm.trans ht
    rcases stepIsTotal s with ⟨u, hu⟩ | ⟨f, hf⟩
    · rw [run_next hu] at h
      rcases step_sequencer_cases hs hu with ⟨-, hlt⟩ | ⟨hhalted, -⟩
      · have := ih h
        omega
      · cases (run_of_halted hhalted _).symm.trans h
        cases hhalted.symm.trans ht
    · cases (run_fault hf).symm.trans h

/-- Settles O24: the loop ends before its bound, and pc, which each step that goes on moves up, is at most
65535. -/
theorem everyRunEndsWithinTheBound : Obligations.EveryRunEndsWithinTheBound := by
  constructor
  · intro s
    obtain ⟨r, hr⟩ := execute_ends s
    cases r with
    | ok t => exact .inl ⟨t, hr⟩
    | error f => exact .inr ⟨f, hr⟩
  · intro s t n h ht
    have hle : s.pc.toNat + n ≤ t.pc.toNat := pc_add_le_of_run h ht
    have hlt : t.pc.toNat < 65536 := t.pc.isLt
    omega

/-! ### EXECUTE and the iteration of step -/

/-- After `n` steps from `s` the outcome is reached: a halted state, or the fault. -/
def ReachedAfter (n : Nat) (s : State) : Except Fault State → Prop
  | .ok u => Host.Core.run Sys2Proof.core n s = .next u ∧ u.seq = .halted
  | .error f => Host.Core.run Sys2Proof.core n s = .fault f

section
variable {n : Nat} {s t : State} {r : Except Fault State}

theorem not_reachedAfter_zero (hs : s.seq = .fetch) : ¬ ReachedAfter 0 s r := by
  cases r with
  | error f => exact fun h => nomatch h
  | ok u =>
    rintro ⟨h, hu⟩
    cases h
    cases hs.symm.trans hu

theorem reachedAfter_succ_of_next (h : step s = .next t) :
    ReachedAfter (n + 1) s r ↔ ReachedAfter n t r := by
  cases r <;> simp only [ReachedAfter, run_next h]

theorem LastStep.reachedAfter_one (h : LastStep s r) : ReachedAfter 1 s r := by
  cases r with
  | error f => exact run_fault h
  | ok u => exact ⟨run_next h.1, h.2⟩

theorem lastStep_of_reachedAfter_of_fault {f : Fault} (hf : step s = .fault f)
    (h : ReachedAfter (n + 1) s r) : LastStep s r := by
  cases r with
  | error g => cases (run_fault hf).symm.trans h; exact hf
  | ok u => cases (run_fault hf).symm.trans h.1

theorem lastStep_of_reachedAfter_of_halted (hstep : step s = .next t) (ht : t.seq = .halted)
    (h : ReachedAfter n t r) : LastStep s r := by
  cases r with
  | error g => cases (run_of_halted ht n).symm.trans h
  | ok u => cases (run_of_halted ht n).symm.trans h.1; exact ⟨hstep, ht⟩

theorem runEnds_iff_reachedAfter (hs : s.seq = .fetch) : RunEnds s r ↔ ∃ n, ReachedAfter n s r := by
  constructor
  · intro h
    induction h with
    | last hlast => exact ⟨1, hlast.reachedAfter_one⟩
    | goesOn hstep hseq _ ih =>
      obtain ⟨n, hn⟩ := ih hseq
      exact ⟨n + 1, (reachedAfter_succ_of_next hstep).mpr hn⟩
  · rintro ⟨n, h⟩
    induction n generalizing s with
    | zero => exact absurd h (not_reachedAfter_zero hs)
    | succ n ih =>
      rcases stepIsTotal s with ⟨t, ht⟩ | ⟨f, hf⟩
      · rw [reachedAfter_succ_of_next ht] at h
        cases hseq : t.seq with
        | fetch => exact .goesOn ht hseq (ih hseq h)
        | halted => exact .last (lastStep_of_reachedAfter_of_halted ht hseq h)
      · exact .last (lastStep_of_reachedAfter_of_fault hf h)

end

/-- Settles O26: EXECUTE ends as its steps end, which is where their iteration first halts or faults. -/
theorem executeIteratesStep : Obligations.ExecuteIteratesStep := by
  intro s
  refine ⟨fun t => ?_, fun f => ?_⟩
  · rw [runHalts_iff]
    simp only [runEnds_iff_reachedAfter (State.setSeq_seq s .fetch)]
    constructor
    · rintro ⟨u, ⟨n, hrun, hu⟩, ht⟩
      exact ⟨n, u, hrun, hu, ht⟩
    · rintro ⟨n, u, hrun, hu, ht⟩
      exact ⟨u, ⟨n, hrun, hu⟩, ht⟩
  · rw [runFaults_iff, runEnds_iff_reachedAfter (State.setSeq_seq s .fetch)]
    rfl

/-! ### What a run leaves -/

theorem sameUntouched_trans {s t u : State} (h : SameUntouched s t) (h' : SameUntouched t u) :
    SameUntouched s u := by
  obtain ⟨hy, hp, hmem⟩ := h
  obtain ⟨hy', hp', hmem'⟩ := h'
  exact ⟨hy'.trans hy, hp'.trans hp, fun a => (hmem' a).trans (hmem a)⟩

/-- What a run keeps of its first state at every later one. -/
def KeptByRun (s t : State) : Prop :=
  t.mem = s.mem ∧ SameUntouched s t

theorem KeptByRun.trans {s t u : State} (h : KeptByRun s t) (h' : KeptByRun t u) : KeptByRun s u :=
  ⟨h'.1.trans h.1, sameUntouched_trans h.2 h'.2⟩

theorem keptByRun_of_step {s t : State} (h : step s = .next t) : KeptByRun s t :=
  ⟨step_keeps_mem h, (stepFrame s t h).1⟩

/-- The step that ends a run, and the state it starts from. -/
theorem RunEnds.exists_lastStep {s : State} {r : Except Fault State} (h : RunEnds s r)
    (hs : s.seq = .fetch) : ∃ v, v.seq = .fetch ∧ KeptByRun s v ∧ LastStep v r := by
  induction h with
  | last hlast => exact ⟨_, hs, ⟨rfl, sameUntouched_refl _⟩, hlast⟩
  | goesOn hstep hseq _ ih =>
    obtain ⟨v, hv, hkept, hlast⟩ := ih hseq
    exact ⟨v, hv, (keptByRun_of_step hstep).trans hkept, hlast⟩

theorem LastStep.keptByRun {s : State} {r : Except Fault State} (h : LastStep s r) :
    KeptByRun s (finalState r) := by
  cases r with
  | ok t => exact keptByRun_of_step h.1
  | error f =>
    obtain ⟨pc, hleft⟩ := stateLeft_of_step_fault h
    rw [finalState, hleft]
    exact ⟨rfl, sameUntouched_refl s⟩

theorem RunEnds.keptByRun {s : State} {r : Except Fault State} (h : RunEnds s r) (hs : s.seq = .fetch) :
    KeptByRun s (finalState r) := by
  obtain ⟨v, -, hkept, hlast⟩ := h.exists_lastStep hs
  exact hkept.trans hlast.keptByRun

/-- EXECUTE keeps memory, Y and the reserved bits, and hands back its state with the mark at Fetch. -/
theorem execute_leaves {s : State} {r : Except Fault State} (h : execute s = some r) :
    KeptByRun s (finalState r) ∧ (finalState r).seq = .fetch := by
  cases r with
  | ok t =>
    obtain ⟨u, hrun, rfl⟩ := runHalts_iff.mp h
    exact ⟨hrun.keptByRun (State.setSeq_seq s .fetch), rfl⟩
  | error f =>
    have hrun : RunEnds (s.setSeq .fetch) (.error f) := runFaults_iff.mp h
    refine ⟨hrun.keptByRun (State.setSeq_seq s .fetch), ?_⟩
    obtain ⟨v, hv, -, hlast⟩ := hrun.exists_lastStep (State.setSeq_seq s .fetch)
    obtain ⟨pc, hleft⟩ := stateLeft_of_step_fault hlast
    rw [finalState, hleft, State.setPc_seq, hv]

/-- Settles O27: every step keeps Y, the reserved bits and memory, the one that ends the run too. -/
theorem runLeavesUntouchedState : Obligations.RunLeavesUntouchedState := by
  intro s
  constructor
  · intro t hrun
    obtain ⟨⟨-, hsame⟩, -⟩ := execute_leaves hrun
    exact hsame
  · intro f hrun
    obtain ⟨⟨-, hsame⟩, -⟩ := execute_leaves hrun
    exact hsame

/-- Settles O28: by the step that ends the run, whose state has the memory the run began with. -/
theorem runOutcomes : Obligations.RunOutcomes := by
  intro s
  constructor
  · intro t hrun
    obtain ⟨u, hends, rfl⟩ := runHalts_iff.mp hrun
    obtain ⟨v, hv, ⟨-, -, -, hbytes⟩, hstep, hu⟩ := hends.exists_lastStep (State.setSeq_seq s .fetch)
    rcases step_sequencer_cases hv hstep with ⟨hfetch, -⟩ | ⟨-, hpc, hbyte, rfl⟩
    · cases hfetch.symm.trans hu
    · have hsucc : (v.pc + 1).toNat = v.pc.toNat + 1 := toNat_succ_of_populated hpc
      simp only [State.setSeq_pc, State.setPc_pc, hsucc, BitVec.add_sub_cancel]
      exact ⟨Nat.succ_pos _, (hbytes v.pc).symm.trans hbyte⟩
  · intro f hrun
    obtain ⟨v, -, ⟨-, -, -, hbytes⟩, hlast⟩ :=
      (runFaults_iff.mp hrun).exists_lastStep (State.setSeq_seq s .fetch)
    obtain ⟨-, hfetch⟩ := step_fault_iff.mp hlast
    rcases fetchInstr_error_iff.mp hfetch with ⟨hpc, rfl⟩ | ⟨hpc, hop, rfl⟩ | ⟨-, -, rfl⟩
    · exact .inr ⟨v, rfl, hpc⟩
    · have hsucc : (v.pc + 1).toNat = v.pc.toNat + 1 := toNat_succ_of_populated ((populated_iff v.pc).mpr hpc)
      refine .inl ⟨v.byteAt v.pc, v.pc + 1, _, rfl, rfl, by rw [hsucc]; exact Nat.succ_pos _, ?_,
        (decodeOpcode_eq_none_iff _).mp hop⟩
      rw [BitVec.add_sub_cancel]
      exact (hbytes v.pc).symm
    · exact .inr ⟨_, rfl, rfl⟩

/-! ### The longest run -/

/-- INX at `n` rising addresses from `a` up. -/
def inxCells : Nat → Nat → Memory
  | _, 0 => []
  | a, n + 1 => (a, 0xE8#8) :: inxCells (a + 1) n

theorem wfFrom_inxCells {a n : Nat} (h : a + n ≤ 65535) : Memory.wfFrom a (inxCells a n) = true := by
  induction n generalizing a with
  | zero => rfl
  | succ n ih =>
    have htop : a ≤ Config.memTop := by unfold Config.memTop; omega
    rw [inxCells, Memory.wfFrom, ih (by omega)]
    simp [htop, unlistedByte]

theorem byteAt_inxCells {a n b : Nat} (hle : a ≤ b) (hlt : b < a + n) :
    Memory.byteAt (inxCells a n) b = 0xE8#8 := by
  induction n generalizing a with
  | zero => omega
  | succ n ih =>
    rw [inxCells, Memory.byteAt]
    split
    · rfl
    · exact ih (by omega) (by omega)

/-- Where INX stands at every populated address, every step goes on until pc is at the top. -/
theorem run_of_all_inx {n : Nat} {s : State} (hs : s.seq = .fetch)
    (hinx : ∀ a : Address, a ≠ 0xFFFF → s.byteAt a = 0xE8#8) (hn : s.pc.toNat + n ≤ 65535) :
    ∃ t, Host.Core.run Sys2Proof.core n s = .next t ∧ t.seq = .fetch ∧ t.pc.toNat = s.pc.toNat + n := by
  induction n generalizing s with
  | zero => exact ⟨s, rfl, hs, rfl⟩
  | succ n ih =>
    have hpc : s.pc.toNat ≤ Config.memTop := by unfold Config.memTop; omega
    have hbyte : s.byteAt s.pc = 0xE8#8 := hinx s.pc ((populated_iff s.pc).mp hpc)
    have hsucc : (s.pc + 1).toNat = s.pc.toNat + 1 := toNat_succ_of_populated hpc
    obtain ⟨u, hstep, hu, hupc, humem⟩ :
        ∃ u, step s = .next u ∧ u.seq = .fetch ∧ u.pc = s.pc + 1 ∧ u.mem = s.mem := by
      obtain ⟨x, -, hstep⟩ := inxStep s hs hpc hbyte
      exact ⟨_, hstep, hs, rfl, rfl⟩
    rw [← hupc] at hsucc
    obtain ⟨t, hrun, ht, htpc⟩ :=
      ih hu (fun a ha => by rw [State.byteAt, humem]; exact hinx a ha) (by omega)
    exact ⟨t, (run_next hstep).trans hrun, ht, by omega⟩

/-- Settles O25: INX at every populated address runs 65535 steps up to 0xFFFF, where the fetch faults. -/
theorem longestRunReachesTheBound : Obligations.LongestRunReachesTheBound := by
  have hinx : ∀ a : Address, a ≠ 0xFFFF → (State.reset.setMem (inxCells 0 65535)).byteAt a = 0xE8#8 := by
    intro a ha
    have hpop : a.toNat ≤ 0xFFFE := (populated_iff a).mpr ha
    exact byteAt_inxCells (Nat.zero_le _) (by omega)
  obtain ⟨t, hrun, ht, htpc⟩ := run_of_all_inx (n := 65535) rfl hinx (Nat.le_refl _)
  have htop : t.pc = 0xFFFF := BitVec.eq_of_toNat_eq htpc
  have hwf : Memory.wfFrom 0 (inxCells 0 65535) = true := wfFrom_inxCells (Nat.le_refl _)
  exact ⟨State.reset.setMem (inxCells 0 65535), t, hwf, hrun, ht, step_of_fault ht (fetchInstr_top htop)⟩

end Sys2Proof.Machine

/-! SUPPORT. Memory: the byte access, the word access at the top, and that a canonical memory is decided by
its bytes (`20_memory.md`). -/

namespace Sys2Proof.Machine

/-! ### Byte access -/

/-- All a write at a populated address does: it answers the state with that one byte written (R33). -/
theorem memWrite_spec {s : State} {a : Address} (v : Byte) (hw : Memory.wf s.mem = true) (ha : a ≠ 0xFFFF) :
    ∃ m, memWrite s a v = .ok (s.setMem m) ∧ (s.setMem m).byteAt a = v ∧
      ∀ b : Address, b ≠ a → (s.setMem m).byteAt b = s.byteAt b := by
  exact ⟨_, memWrite_populated v ((populated_iff a).mpr ha), Memory.byteAt_setByte_same _ v hw,
    fun b hb => Memory.byteAt_setByte_other _ _ _ v fun e => hb (BitVec.eq_of_toNat_eq e)⟩

/-- Settles O31: the written state differs in that one byte; 0xFFFF is the one address past the top. -/
theorem byteAccessRule : Obligations.ByteAccessRule := by
  intro s addr v hw
  constructor
  · intro hne
    obtain ⟨m, hwrite, hsame, hother⟩ := memWrite_spec v hw hne
    refine ⟨s.setMem m, hwrite, ?_, hother, rfl, rfl, rfl, rfl, rfl, rfl⟩
    rw [memRead_populated ((populated_iff addr).mpr hne), hsame]
  · rintro rfl
    exact ⟨memWrite_top v (by decide), memRead_top (by decide)⟩

/-- Settles O34: the write puts the byte at pc, and the fetch reads memory there. -/
theorem fetchSeesHostWrite : Obligations.FetchSeesHostWrite := by
  intro s b hw hpc
  obtain ⟨m, hwrite, hsame, -⟩ := memWrite_spec b hw ((populated_iff s.pc).mp hpc)
  have hfetch : fetchByte (s.setMem m) = .ok ((s.setMem m).byteAt s.pc, (s.setMem m).setPc (s.pc + 1)) :=
    fetchByte_populated (s := s.setMem m) hpc
  rw [hsame] at hfetch
  exact ⟨s.setMem m, hwrite, hfetch⟩

/-! ### Word access at the top -/

theorem memRead16_of_low_error {s : State} {a : Address} {f : Fault} (h : memRead s a = .error f) :
    memRead16 s a = .error f := by
  rw [memRead16, h]

theorem memRead16_of_high_error {s : State} {a : Address} {lo : Byte} {f : Fault} (h : memRead s a = .ok lo)
    (h' : memRead s (a + 1) = .error f) : memRead16 s a = .error f := by
  simp only [memRead16, h, h']

theorem memWrite16_of_ok {s t : State} {a v : Address} (h : memWrite s a (lowByte v) = .ok t) :
    memWrite16 s a v = memWrite t (a + 1) (highByte v) := by
  rw [memWrite16, h]

/-- Settles O33: of the two byte accesses, the one at 0xFFFF faults; at 0xFFFE the low byte comes before it. -/
theorem wordAccessAtTheTop : Obligations.WordAccessAtTheTop := by
  intro s v hw
  obtain ⟨m, hwrite, hsame, hother⟩ := memWrite_spec (a := 0xFFFE) (lowByte v) hw (by decide)
  refine ⟨memRead16_of_high_error (memRead_populated (by decide)) (memRead_top (by decide)),
    memRead16_of_low_error (memRead_top (by decide)), ?_,
    s.setMem m, ?_, ?_, hother, rfl, rfl, rfl, rfl, rfl⟩
  · rw [memWrite16, memWrite_top _ (by decide)]
  · rw [memWrite16_of_ok hwrite]
    exact memWrite_top _ (by decide)
  · rw [hsame, toNat_lowByte]

/-! ### The canonical form -/

theorem Memory.wfFrom_cons_iff {lo k : Nat} {v : Byte} {rest : Memory} :
    Memory.wfFrom lo ((k, v) :: rest) = true ↔
      lo ≤ k ∧ k ≤ Config.memTop ∧ v ≠ unlistedByte ∧ Memory.wfFrom (k + 1) rest = true := by
  simp only [Memory.wfFrom, Bool.and_eq_true, decide_eq_true_eq, and_assoc]

/-- The first address a canonical memory lists is not below the first one of another that reads alike. -/
theorem Memory.head_le_head {k k' : Nat} {v v' : Byte} {rest rest' : Memory} {lo lo' : Nat}
    (h : Memory.wfFrom lo ((k, v) :: rest) = true) (h' : Memory.wfFrom lo' ((k', v') :: rest') = true)
    (heq : ∀ a, Memory.byteAt ((k, v) :: rest) a = Memory.byteAt ((k', v') :: rest') a) : k' ≤ k := by
  obtain ⟨-, -, hv, -⟩ := Memory.wfFrom_cons_iff.mp h
  obtain ⟨-, htop', hv', hrest'⟩ := Memory.wfFrom_cons_iff.mp h'
  by_contra hlt
  have hlow : Memory.wfFrom k' ((k', v') :: rest') = true :=
    Memory.wfFrom_cons_iff.mpr ⟨Nat.le_refl k', htop', hv', hrest'⟩
  apply hv
  rw [← Memory.byteAt_head k v rest, heq, Memory.byteAt_below hlow (Nat.lt_of_not_le hlt)]

theorem Memory.exists_byteAt_ne_unlisted {lo k : Nat} {v : Byte} {rest : Memory}
    (h : Memory.wfFrom lo ((k, v) :: rest) = true) :
    ∃ a, Memory.byteAt ((k, v) :: rest) a ≠ unlistedByte := by
  obtain ⟨-, -, hv, -⟩ := Memory.wfFrom_cons_iff.mp h
  exact ⟨k, by rwa [Memory.byteAt_head]⟩

theorem Memory.eq_of_byteAt_eq {m n : Memory} {lo : Nat} (hm : Memory.wfFrom lo m = true)
    (hn : Memory.wfFrom lo n = true) (heq : ∀ a, Memory.byteAt m a = Memory.byteAt n a) : m = n := by
  induction m generalizing lo n with
  | nil =>
    cases n with
    | nil => rfl
    | cons c n =>
      obtain ⟨a, ha⟩ := Memory.exists_byteAt_ne_unlisted hn
      exact absurd (heq a).symm ha
  | cons c m ih =>
    cases n with
    | nil =>
      obtain ⟨a, ha⟩ := Memory.exists_byteAt_ne_unlisted hm
      exact absurd (heq a) ha
    | cons d n =>
      obtain ⟨k, v⟩ := c
      obtain ⟨k', v'⟩ := d
      have hk : k = k' :=
        Nat.le_antisymm (Memory.head_le_head hn hm fun a => (heq a).symm) (Memory.head_le_head hm hn heq)
      subst hk
      have hv : v = v' := by simpa only [Memory.byteAt_head] using heq k
      subst hv
      obtain ⟨-, -, -, hm'⟩ := Memory.wfFrom_cons_iff.mp hm
      obtain ⟨-, -, -, hn'⟩ := Memory.wfFrom_cons_iff.mp hn
      rw [ih hm' hn' fun a => ?_]
      by_cases ha : k = a
      · rw [Memory.byteAt_below hm' (by omega), Memory.byteAt_below hn' (by omega)]
      · simpa only [Memory.byteAt, if_neg ha] using heq a

/-- Settles O35: a canonical list is decided by its bytes from its first cell on. -/
theorem canonicalMemoryIsExtensional : Obligations.CanonicalMemoryIsExtensional :=
  fun _ _ hm hn heq => Memory.eq_of_byteAt_eq hm hn heq

end Sys2Proof.Machine

/-! SUPPORT. The host: LOAD and what follows it, and what every operation of the host keeps
(`70_reset_and_hazards.md`). -/

namespace Sys2Proof.Machine

/-- Settles O23: the state after reset is running, with empty memory; power-on leaves a zero vector, which
RESET loads into pc. -/
theorem resetStateMeetsInv : Obligations.ResetStateMeetsInv :=
  ⟨⟨rfl, fun h => nomatch h⟩, hostReset_eq powerOn⟩

/-! ### LOAD -/

/-- Where LOAD's loop goes through, LOAD writes ORIGIN to the vector after it (R123). -/
theorem hostLoad_of_copyBytes {s : State} {program : List Byte} {m : Memory} (hfit : program.length ≤ 32767)
    (hcopy : copyBytes s Config.origin program = .ok (s.setMem m)) :
    hostLoad s program = .ok (s.setMem (Memory.setByte (Memory.setByte m 0xFFFC 0x00) 0xFFFD 0x80)) := by
  rw [hostLoad, if_pos ((programFits_iff program).mpr hfit), hcopy]
  exact memWrite16_populated _ (by decide)

/-- Settles O38: the vector is written over what the loop left, and the loop writes the program alone. -/
theorem loadInstallsProgramAndVector : Obligations.LoadInstallsProgramAndVector := by
  intro s program hw hfit
  have horigin : Config.origin.toNat = 0x8000 := rfl
  obtain ⟨m, hcopy, hwm, hprogram, hother⟩ :=
    copyBytes_spec s Config.origin program hw (by rw [horigin]; omega)
  rw [horigin] at hprogram hother
  have hbyte (a : Nat) : Memory.byteAt (Memory.setByte (Memory.setByte m 0xFFFC 0x00) 0xFFFD 0x80) a =
      if a = 0xFFFD then 0x80 else if a = 0xFFFC then 0x00 else Memory.byteAt m a :=
    Memory.byteAt_setByte_setByte_succ 0x00 0x80 a hwm (by decide)
  refine ⟨_, hostLoad_of_copyBytes hfit hcopy, hbyte 0xFFFC, hbyte 0xFFFD, fun k hk hlo hhi => ?_,
    fun a ha hlo hhi => ?_, rfl, rfl, rfl, rfl, rfl⟩
  · rw [State.setMem_mem, hbyte, if_neg hhi, if_neg hlo, hprogram k hk]
  · rw [State.setMem_mem, hbyte, if_neg hhi, if_neg hlo, hother a ha]

/-- Settles O39: the length is checked before anything is written. -/
theorem oversizedLoadIsRefused : Obligations.OversizedLoadIsRefused := by
  intro s program hlen
  have hload : hostLoad s program = .error (.loadTooLarge program.length s) := by
    rw [hostLoad, if_neg (mt (programFits_iff program).mp (Nat.not_le_of_lt hlen)), raiseFault]
  exact ⟨hload, by rw [loadAndRun, hload]⟩

/-- Settles O40: RESET loads pc from the vector that LOAD has written. -/
theorem loadThenResetStartsAtOrigin : Obligations.LoadThenResetStartsAtOrigin := by
  intro s program hw hfit
  obtain ⟨t, hload, hlo, hhi, -, -, -, -, hy, -, -⟩ := loadInstallsProgramAndVector s program hw hfit
  obtain ⟨u, hreset, ha, hx, hp, hpc, hyu, -⟩ := resetRule t
  rw [hlo, hhi] at hpc
  exact ⟨t, u, hload, hreset, BitVec.eq_of_toNat_eq hpc, ha, hx, hp, hyu.trans hy⟩

/-- Settles O41: LOAD's loop fits below the top, RESET answers every state, and EXECUTE ends from each. -/
theorem loadAndRunComposesTheThree : Obligations.LoadAndRunComposesTheThree := by
  intro s program hfit
  have horigin : Config.origin.toNat = 0x8000 := rfl
  obtain ⟨m, hcopy⟩ := copyBytes_ok s Config.origin program (by rw [horigin]; omega)
  have hload := hostLoad_of_copyBytes hfit hcopy
  obtain ⟨u, hreset, -⟩ := resetRule (s.setMem (Memory.setByte (Memory.setByte m 0xFFFC 0x00) 0xFFFD 0x80))
  obtain ⟨r, hrun⟩ := execute_ends u
  refine ⟨_, u, r, hload, hreset, hrun, ?_⟩
  simp only [loadAndRun, hload, hreset, hrun]

/-! ### What every operation of the host keeps -/

/-- A machine at rest: its mark is at Fetch, and its memory is canonical if `canonical` holds. A host
operation takes for `canonical` that the memory it began with is. -/
def AtRest (canonical : Prop) (s : State) : Prop :=
  s.seq = .fetch ∧ (canonical → Memory.wf s.mem = true)

section
variable {canonical : Prop} {s : State}

theorem AtRest.of_mem_eq {t : State} (h : AtRest canonical s) (hmem : t.mem = s.mem) (hseq : t.seq = .fetch) :
    AtRest canonical t :=
  ⟨hseq, fun hc => by rw [hmem]; exact h.2 hc⟩

theorem AtRest.memWrite (h : AtRest canonical s) (a : Address) (v : Byte) :
    AtRest canonical (finalState (memWrite s a v)) := by
  rcases memWrite_cases s a v with ⟨htop, hwrite⟩ | ⟨-, hwrite⟩ <;> rw [hwrite]
  · exact ⟨h.1, fun hc => Memory.wf_setByte v (h.2 hc) htop⟩
  · exact h

theorem AtRest.memWrite16 (h : AtRest canonical s) (a v : Address) :
    AtRest canonical (finalState (memWrite16 s a v)) := by
  have hlow : AtRest canonical (finalState (Machine.memWrite s a (lowByte v))) := h.memWrite a (lowByte v)
  unfold Machine.memWrite16
  cases hwrite : Machine.memWrite s a (lowByte v) <;> rw [hwrite] at hlow
  case error => exact hlow
  case ok => exact AtRest.memWrite hlow (a + 1) (highByte v)

theorem AtRest.copyBytes (h : AtRest canonical s) (a : Address) (bytes : List Byte) :
    AtRest canonical (finalState (copyBytes s a bytes)) := by
  induction bytes generalizing s a with
  | nil => exact h
  | cons b rest ih =>
    have hfirst : AtRest canonical (finalState (Machine.memWrite s a b)) := h.memWrite a b
    rw [Machine.copyBytes]
    cases hwrite : Machine.memWrite s a b <;> rw [hwrite] at hfirst
    case error => exact hfirst
    case ok => exact ih hfirst (a + 1)

theorem AtRest.hostLoad (h : AtRest canonical s) (program : List Byte) :
    AtRest canonical (finalState (hostLoad s program)) := by
  unfold Machine.hostLoad
  split
  · have hcopied : AtRest canonical (finalState (Machine.copyBytes s Config.origin program)) :=
      h.copyBytes Config.origin program
    cases hcopy : Machine.copyBytes s Config.origin program <;> rw [hcopy] at hcopied
    case error => exact hcopied
    case ok => exact AtRest.memWrite16 hcopied Config.resetVector Config.origin
  · exact h

theorem AtRest.hostReset (h : AtRest canonical s) : AtRest canonical (finalState (hostReset s)) := by
  rw [hostReset_eq]
  exact h.of_mem_eq rfl rfl

theorem AtRest.execute {r : Except Fault State} (h : AtRest canonical s)
    (hrun : Machine.execute s = some r) : AtRest canonical (finalState r) := by
  obtain ⟨⟨hmem, -⟩, hseq⟩ := execute_leaves hrun
  exact h.of_mem_eq hmem hseq

theorem AtRest.loadAndRun {program : List Byte} {r : Except Fault State} (h : AtRest canonical s)
    (hrun : Machine.loadAndRun s program = some r) : AtRest canonical (finalState r) := by
  have hloaded : AtRest canonical (finalState (Machine.hostLoad s program)) := h.hostLoad program
  unfold Machine.loadAndRun at hrun
  cases hload : Machine.hostLoad s program <;> rw [hload] at hrun hloaded
  case error =>
    cases hrun
    exact hloaded
  case ok t =>
    have hreset : AtRest canonical (finalState (Machine.hostReset t)) := AtRest.hostReset hloaded
    obtain ⟨u, hu, -⟩ := resetRule t
    simp only [hu] at hrun hreset
    exact AtRest.execute hreset hrun

/-! The state after an operation, by the form of its answer. -/

theorem changed_snd (r : Except Fault State) : (changed r).2 = finalState r := by
  cases r <;> rfl

theorem AtRest.ended {o : Option (Except Fault State)} (h : AtRest canonical s)
    (hend : ∀ r, o = some r → AtRest canonical (finalState r)) : AtRest canonical (ended s o).2 := by
  rcases o with _ | f | t
  · exact h
  · exact hend _ rfl
  · exact hend _ rfl

theorem stateLeft_of_memRead {a : Address} {f : Fault} (h : memRead s a = .error f) : f.stateLeft = s := by
  by_cases htop : Config.memTop < a.toNat
  · cases (memRead_top htop).symm.trans h; rfl
  · cases (memRead_populated (Nat.le_of_not_lt htop)).symm.trans h

theorem stateLeft_of_memRead16 {a : Address} {f : Fault} (h : memRead16 s a = .error f) :
    f.stateLeft = s := by
  unfold memRead16 at h
  cases hlo : memRead s a with
  | error g => rw [hlo] at h; cases h; exact stateLeft_of_memRead hlo
  | ok lo =>
    cases hhi : memRead s (a + 1) with
    | error g => simp only [hlo, hhi] at h; cases h; exact stateLeft_of_memRead hhi
    | ok hi => simp only [hlo, hhi] at h; cases h

theorem answered_snd {α : Type} {result : α → HostResult} {r : Except Fault α}
    (h : ∀ f, r = .error f → f.stateLeft = s) : (answered s result r).2 = s := by
  cases r with
  | ok v => rfl
  | error f => exact h f rfl

theorem AtRest.performBetweenRuns (h : AtRest canonical s) (op : HostOp) :
    AtRest canonical (performBetweenRuns op s).2 := by
  cases op with
  | powerOn => exact ⟨rfl, fun _ => rfl⟩
  | load program => exact (changed_snd _).symm ▸ h.hostLoad program
  | reset => exact (changed_snd _).symm ▸ h.hostReset
  | execute => exact h.ended fun r => h.execute
  | loadAndRun program => exact h.ended fun r => h.loadAndRun
  | readReg r => exact h
  | writeReg r v => exact h.of_mem_eq (State.writeReg_mem s r v) ((State.writeReg_seq s r v).trans h.1)
  | readPc => exact h
  | writePc v => exact h.of_mem_eq rfl h.1
  | readByte addr => exact (answered_snd fun f => stateLeft_of_memRead (a := addr)).symm ▸ h
  | readWord addr => exact (answered_snd fun f => stateLeft_of_memRead16 (a := addr)).symm ▸ h
  | writeByte addr v => exact (changed_snd _).symm ▸ h.memWrite addr v
  | writeWord addr v => exact (changed_snd _).symm ▸ h.memWrite16 addr v

end

theorem atRest_perform (op : HostOp) (s : State) :
    AtRest (Memory.wf s.mem = true) (perform op s).2 :=
  AtRest.performBetweenRuns (s := s.setSeq .fetch) ⟨rfl, id⟩ op

/-- Settles O43: every operation keeps memory canonical, through its writes at populated addresses, its
resets and its runs. -/
theorem hostOperationsKeepMemoryCanonical : Obligations.HostOperationsKeepMemoryCanonical := by
  intro op s
  obtain ⟨-, hwf⟩ := atRest_perform op s
  exact hwf

/-- Settles O29: EXECUTE sets the mark before its loop reads it. -/
theorem executeForgetsEarlierOutcome : Obligations.ExecuteForgetsEarlierOutcome :=
  fun _ _ => rfl

/-- Settles O44: a run hands its state back at rest, and every operation begins and ends there. -/
theorem nothingOfARunIsRetained : Obligations.NothingOfARunIsRetained := by
  refine ⟨fun s t hrun => ?_, fun s f hrun => ?_, fun _ _ _ => rfl, fun op s => ?_⟩
  · obtain ⟨-, hseq⟩ := execute_leaves hrun
    exact hseq
  · obtain ⟨-, hseq⟩ := execute_leaves hrun
    exact hseq
  · obtain ⟨hseq, -⟩ := atRest_perform op s
    exact hseq

end Sys2Proof.Machine
